-- ==== Sys2Proof/Word.lean ====
section
/-! DEFINITION. The words, the two blocks and the plain data types that every later file speaks of. -/

namespace Sys2Proof

/-- The 64-bit payload; bit k is `data[k]` (20_memory.md R26). -/
abbrev Payload := BitVec 64

/-- The 72-bit codeword; position p is bit p - 1 (20_memory.md R25). -/
abbrev Codeword := BitVec 72

/-- The 7-bit syndrome `S`, an unsigned integer (30_encoding.md R41). -/
abbrev Syndrome := BitVec 7

/-- The two hardware blocks (00_scope.md R1, R2). -/
inductive Block where
  /-- `hamming_72_64_encoder` -/
  | encoder
  /-- `hamming_72_64_decoder_syndrome_classifier` -/
  | decoder
  deriving DecidableEq, Repr

/-- The two operations of the operation map (30_encoding.md R48), as `InvalidLength` records them (R76). -/
inductive Operation where
  | encode
  | decode
  deriving DecidableEq, Repr

/-- The one operation each block performs (30_encoding.md R37). -/
def Block.operation : Block → Operation
  | .encoder => .encode
  | .decoder => .decode

/-- The block that performs an operation (30_encoding.md R37). -/
def Operation.block : Operation → Block
  | .encode => .encoder
  | .decode => .decoder

/-- What the outside world presents at a block's input: a bit sequence, element 0 first, of any length at the
sequence-typed boundary (30_encoding.md R45). Which operation runs depends only on the block (10_state.md R16). -/
structure Drive where
  block : Block
  bits  : List Bool
  deriving DecidableEq, Repr

/-- The decode result, the spec's abstract type `Outcome` (00_scope.md R11). `pos` has 7 bits, not the range 1..72
(conflict C2). -/
inductive DecodeOutcome where
  | noError
  | singleCorrectableError (pos : BitVec 7)
  | doubleErrorDetected
  deriving DecidableEq, Repr

/-- `Σ_k l[k]·2^k`: a bit sequence read as a number, element 0 least significant (00_scope.md R7, 20_memory.md R26). -/
def natOfBits : List Bool → Nat
  | [] => 0
  | b :: bs => b.toNat + 2 * natOfBits bs

/-- The first `n` bits of a number as a sequence, bit 0 first (00_scope.md R7). -/
def bitsOfNat (n w : Nat) : List Bool := (List.range n).map w.testBit

end Sys2Proof
end

