-- ==== Sys2Proof/Config.lean ====
section
/-! DEFINITION. The codec's parameters: fixed constants, none of them configurable (00_scope.md R5). The spec leaves
no value free (93_implementation_defined.md), so there is no free value here. -/

namespace Sys2Proof.Config

/-- `N_DATA` (R5). -/
abbrev nData : Nat := 64

/-- `N_CODE` (R5). -/
abbrev nCode : Nat := 72

/-- `WEIGHTS` (R5). -/
abbrev weights : List Nat := [1, 2, 4, 8, 16, 32, 64]

/-- `N_HAM` (R5). -/
abbrev nHam : Nat := 7

/-- `POS_OVERALL` (R5). -/
abbrev posOverall : Nat := 72

/-- The last position of `COVER_RANGE`, positions 1..71 (R5). -/
abbrev coverLast : Nat := 71

/-- `S_WIDTH` (R5). -/
abbrev sWidth : Nat := 7

/-- `E_INVALID_LENGTH`, the cause code of `InvalidLength` (60_exceptions.md R76). -/
abbrev eInvalidLength : Nat := 1

/-- The length an operation's input has (R5, 30_encoding.md R37): the one width at which it is accessed, so no access is
misaligned (20_memory.md R29, R30). -/
def inputLength : Operation → Nat
  | .encode => nData
  | .decode => nCode

end Sys2Proof.Config
end

