-- ==== Sys2Proof/Syntax.lean ====
section
/-! DEFINITION. The instructions: one constructor for each row of spec/opcode_table.json. -/

namespace Sys2Proof

/-- The operation map (30_encoding.md R48). The operand is the bit sequence presented at the block's input, element 0
first; the operations check its length themselves (41_encoder.md R55, 42_decoder.md R62). -/
inductive Instr where
  /-- `ENCODE`: the payload sequence, element k is `data[k]` (41_encoder.md R55). -/
  | encode (d : List Bool)
  /-- `DECODE`: the codeword sequence, element p - 1 is position p (42_decoder.md R62). -/
  | decode (c : List Bool)
  deriving DecidableEq, Repr

/-- The operation an instruction performs. -/
def Instr.operation : Instr → Operation
  | .encode _ => .encode
  | .decode _ => .decode

/-- The bit sequence an instruction presents. -/
def Instr.operand : Instr → List Bool
  | .encode d => d
  | .decode c => c

end Sys2Proof
end

