-- ==== Sys2Proof/WellFormed.lean ====
section
/-! DEFINITION. Well-formed instructions: the operand has exactly the length of the operation's port. -/

namespace Sys2Proof

/-- The encode input is exactly 64 bits and the decode input exactly 72 (30_encoding.md R37, R45). -/
def Instr.wellFormed : Instr → Bool
  | .encode d => d.length == Config.nData
  | .decode c => c.length == Config.nCode

/-- `Instr.wellFormed` as a decidable proposition. -/
abbrev Instr.WellFormed (i : Instr) : Prop := i.wellFormed = true

end Sys2Proof
end

