-- ==== Sys2Proof/Decode.lean ====
section
/-! DEFINITION. From what is presented at a block to the instruction it is, and back.

There is no instruction word: the operation is selected by the block that is driven, and every bit of the input is
operand (30_encoding.md R37, R48). The blocks have no bytes, so no byte order enters here (20_memory.md R27). -/

namespace Sys2Proof

/-- Why a drive is no instruction. -/
inductive DecodeError where
  /-- The sequence has a length other than the block's width (30_encoding.md R45); the step turns this into the
  fault `InvalidLength`. -/
  | invalidLength (op : Operation) (n : Nat)
  deriving DecidableEq, Repr

/-- The instruction a drive is: by its block, and rejected when the length is wrong (30_encoding.md R37, R45). -/
def decode (v : Drive) : Except DecodeError Instr :=
  if v.bits.length = Config.inputLength v.block.operation then
    match v.block with
    | .encoder => .ok (.encode v.bits)
    | .decoder => .ok (.decode v.bits)
  else .error (.invalidLength v.block.operation v.bits.length)

/-- The drive of an instruction: its operand at the input of its block (30_encoding.md R37, R47). -/
def encode (i : Instr) : Drive := { block := i.operation.block, bits := i.operand }

/-- The block whose row of spec/opcode_table.json has this width: 72 bits is DECODE's row; any other length is
presented to the encoder, which takes 64 bits and faults on the rest (41_encoder.md R59). DESIGN CHOICE (log entry 6),
safe. -/
def blockOfWidth (nbits : Nat) : Block := if nbits = Config.nCode then .decoder else .encoder

/-- A table row's word as a drive: bit 0 is element 0 (20_memory.md R25, R26). Of a number that does not fit the width
(`w ≥ 2 ^ nbits`, which no row has) it keeps the low `nbits` bits: DESIGN CHOICE (log entry 14), unsafe. -/
def tableDrive (nbits w : Nat) : Drive := { block := blockOfWidth nbits, bits := bitsOfNat nbits w }

/-- The instruction read from a word of `nbits` bits as spec/opcode_table.json numbers them. A number
that does not fit the width is refused here: DESIGN CHOICE (log entry 14), safe. -/
def decodeTableWord (nbits w : Nat) : Option Instr :=
  if w < 2 ^ nbits then (decode (tableDrive nbits w)).toOption else none

/-- The word of an instruction in the table's numbering, and how many bits it has. -/
def encodeTableWord (i : Instr) : Nat × Nat := (i.operand.length, natOfBits i.operand)

end Sys2Proof
end

