-- ==== Sys2Proof/Machine/State.lean ====
section
/-! DEFINITION. The machine's state: the ports of the two blocks, and the drives the outside world is still to present.

The blocks hold no storage (10_state.md R12); there is no register, program counter, status or memory
(R13, R16, R17, R18). The decoder's `s_w`, `S` and `P` "are not ports and are not state" (R20): they are functions in
Machine/Flags.lean. -/

namespace Sys2Proof.Machine

/-- The two ports of `hamming_72_64_encoder` (10_state.md R14). -/
structure EncoderPorts where
  /-- in, 64 bits: the payload -/
  data : Payload
  /-- out, 72 bits: the codeword -/
  cw : Codeword
  deriving DecidableEq, Repr

/-- The three ports of `hamming_72_64_decoder_syndrome_classifier` (10_state.md R15). -/
structure DecoderPorts where
  /-- in, 72 bits: the received codeword -/
  cw : Codeword
  /-- out, 2 bits: the classification (30_encoding.md R42) -/
  outcome : BitVec 2
  /-- out, 7 bits: the correctable position, else 0 (30_encoding.md R43) -/
  position : BitVec 7
  deriving DecidableEq, Repr

/-- The machine. -/
structure State where
  /-- the encoder's ports (R14) -/
  encoder : EncoderPorts
  /-- the decoder's ports (R15) -/
  decoder : DecoderPorts
  /-- DESIGN CHOICE (log entry 1), safe: the drives still to be presented, oldest first; the model's own field. -/
  inputs : List Drive
  deriving DecidableEq, Repr

/-- The faults. -/
inductive Fault where
  /-- `InvalidLength(op, n)` (60_exceptions.md R76): raised by ENCODE and DECODE, and by the step, on a sequence of the
  wrong length. It is the spec's own fault: exact. -/
  | invalidLength (op : Operation) (n : Nat)
  /-- Raised by `unbus` alone, on a bus pair no block drives (30_encoding.md R44, R46); no operation raises it. It is
  the spec's own rule: safe. -/
  | neverDriven (outcome : BitVec 2) (position : BitVec 7)
  deriving DecidableEq, Repr

/-- The refusals. -/
inductive Refusal where
  /-- An instruction whose meaning is not written yet: raised by exec's arms alone, and by none of them now. Safe. -/
  | notModelled (mnemonic : String)
  /-- Raised by `getPos`, `setPos` and `flip` at a position outside 1..72, which the spec says a model must refuse
  (10_state.md R21). Safe. -/
  | positionOutOfRange (p : Nat)
  /-- Raised by `coverage` on anything but the seven weights, which the spec says a model must refuse
  (40_coverage_map.md R49). Safe. -/
  | notAWeight (w : Nat)
  deriving DecidableEq, Repr

/-- After power-on. The inputs are 0 (DESIGN CHOICE, unsafe, log entry 2: the spec gives the input ports no value); the
outputs are the functions of those inputs that 10_state.md R24 asks for (`ENCODE(0)` is 0, 41_encoder.md R58, and
`DECODE(0)` is NoError, so `(00, 0)`). -/
def State.reset : State where
  encoder := { data := 0, cw := 0 }
  decoder := { cw := 0, outcome := 0, position := 0 }
  inputs := []

end Sys2Proof.Machine
end

