-- ==== Sys2Proof/Machine/Ops.lean ====
section
/-! DEFINITION. The named operations: the position-to-index adapter, reading, writing and flipping a codeword position,
exclusive OR over a set of positions, writing a block's ports, and raising `InvalidLength`.

There is no trap entry and no return from one in this hardware (60_exceptions.md R82, R83): the one shared operation
that takes an exception is `raiseInvalidLength`, which ends the call. -/

namespace Sys2Proof.Machine

/-- The one adapter from the 1-based position to the 0-based bus bit (00_scope.md R8). -/
def posIndex (p : Nat) : Nat := p - 1

/-- The position space 1..72 (10_state.md R21). -/
abbrev IsPosition (p : Nat) : Prop := 1 ≤ p ∧ p ≤ Config.nCode

/-- The positions 1..72, ascending. -/
def positions : List Nat := List.range' 1 Config.nCode

/-- `c⟨p⟩` for a position known to exist (00_scope.md R8). Its value elsewhere is a filler: DESIGN CHOICE (log entry 11),
safe, since `getPos`, `setPos` and `flip` refuse first and the operations name positions of 1..72 only. -/
def bitAt (c : Codeword) (p : Nat) : Bool := c.getLsbD (posIndex p)

/-- `c` with position `p`, known to exist, replaced by `b` (00_scope.md R10). -/
def setAt (c : Codeword) (p : Nat) (b : Bool) : Codeword :=
  if b then c ||| BitVec.twoPow 72 (posIndex p) else c &&& ~~~ BitVec.twoPow 72 (posIndex p)

/-- `GetPos(c, p)`: refused outside 1..72 (00_scope.md R10, 10_state.md R21). -/
def getPos (c : Codeword) (p : Nat) : Except Refusal Bool :=
  if IsPosition p then .ok (bitAt c p) else .error (.positionOutOfRange p)

/-- `SetPos(c, p, b)`: refused outside 1..72 (00_scope.md R10, 10_state.md R21). -/
def setPos (c : Codeword) (p : Nat) (b : Bool) : Except Refusal Codeword :=
  if IsPosition p then .ok (setAt c p b) else .error (.positionOutOfRange p)

/-- `Flip(c, p)`, that is `SetPos(c, p, 1 ⊕ GetPos(c, p))`: refused outside 1..72 (00_scope.md R10, 10_state.md R21).
The caller's action, not part of a block. -/
def flip (c : Codeword) (p : Nat) : Except Refusal Codeword :=
  (getPos c p).bind fun b => setPos c p (true ^^ b)

/-- `⊕_{p ∈ ps} f p`; the empty XOR is 0 (00_scope.md R9). -/
def xorOver (ps : List Nat) (f : Nat → Bool) : Bool := ps.foldr (fun p acc => f p ^^ acc) false

/-- `parity(v)`: the XOR of all bits of `v` (00_scope.md R9). -/
def parity {n : Nat} (v : BitVec n) : Bool := xorOver (List.range n) v.getLsbD

/-- `popcount(v)`: the number of 1 bits in `v` (00_scope.md R9). -/
def popcount {n : Nat} (v : BitVec n) : Nat := (List.range n).countP v.getLsbD

/-- The encoder's ports take a payload and its codeword (10_state.md R14). -/
def State.writeEncoder (s : State) (data : Payload) (cw : Codeword) : State :=
  { s with encoder := { data := data, cw := cw } }

/-- The decoder's ports take a codeword and the bus pair that answers it (10_state.md R15). -/
def State.writeDecoder (s : State) (cw : Codeword) (bus : BitVec 2 × BitVec 7) : State :=
  { s with decoder := { cw := cw, outcome := bus.1, position := bus.2 } }

/-- The fault of a sequence of the wrong length, with the operation and the length (60_exceptions.md R76). -/
def invalidLength (op : Operation) (n : Nat) : Fault := .invalidLength op n

/-- The cause code of a fault; only `InvalidLength` has one (60_exceptions.md R76). -/
def Fault.code : Fault → Option Nat
  | .invalidLength _ _ => some Config.eInvalidLength
  | .neverDriven _ _ => none

/-- Raising `InvalidLength`: the call ends with the fault and no output exists; no state is saved and control goes to no
vector (60_exceptions.md R76, R82). -/
def raiseInvalidLength (op : Operation) (n : Nat) : Host.Outcome State Fault Refusal := .fault (invalidLength op n)

end Sys2Proof.Machine
end

