-- ==== Sys2Proof/Machine/Operands.lean ====
section
/-! DEFINITION. Operand forms: bit sequences and port words, the payload placement, reading a payload back, and the
decoder's output bus. -/

namespace Sys2Proof.Machine

/-- A 64-element payload sequence on port `data`: element k is `data[k]` (20_memory.md R26). ENCODE applies it only after
its length check; on another length it means nothing (log entry 11). -/
def payloadOfSeq (l : List Bool) : Payload := BitVec.ofNat 64 (natOfBits l)

/-- A 72-element codeword sequence on port `cw`: element p - 1 is position p (20_memory.md R25). DECODE applies it only
after its length check; on another length it means nothing (log entry 11). -/
def codewordOfSeq (l : List Bool) : Codeword := BitVec.ofNat 72 (natOfBits l)

/-- A port word as the sequence of its bits, bit 0 first (00_scope.md R7). -/
def seqOfWord {n : Nat} (v : BitVec n) : List Bool := bitsOfNat n v.toNat

/-- A parity position: a power of two among the weights, or 72; every other position is a payload position
(20_memory.md R28). -/
def isParityPos (p : Nat) : Bool := Config.weights.contains p || p == Config.posOverall

/-- `pos(k)`, for k in 0..63: the codeword position of payload bit k (30_encoding.md R39); no use has a greater k. -/
def payloadPos (k : Nat) : Nat :=
  if k = 0 then k + 3
  else if k ≤ 3 then k + 4
  else if k ≤ 10 then k + 5
  else if k ≤ 25 then k + 6
  else if k ≤ 56 then k + 7
  else k + 8

/-- `idx(p) = p − 2 − floor(log2 p)`, for a payload position p (30_encoding.md R39). -/
def payloadIdx (p : Nat) : Nat := p - 2 - Nat.log2 p

/-- `Extract(c)`: the payload read back from the payload positions (30_encoding.md R39). -/
def extract (c : Codeword) : Payload :=
  payloadOfSeq ((List.range Config.nData).map fun k => bitAt c (payloadPos k))

/-- `bus(o)`, the pair `(outcome, position)` the decoder drives (30_encoding.md R42, R43, R46). The 0 of the two outcomes
without a position is the spec's filler, which no consumer reads (log entry 5). -/
def bus : DecodeOutcome → BitVec 2 × BitVec 7
  | .noError => (0b00#2, 0#7)
  | .singleCorrectableError q => (0b01#2, q)
  | .doubleErrorDetected => (0b10#2, 0#7)

/-- `unbus`, a consumer's reading of a bus pair: it faults on every pair that is never driven (30_encoding.md R44, R46).
DEDUCED (log entry 4), safe: `(01, 0)` is among them. -/
def unbus (outcome : BitVec 2) (position : BitVec 7) : Except Fault DecodeOutcome :=
  if outcome = 0b00#2 ∧ position = 0#7 then .ok .noError
  else if outcome = 0b01#2 ∧ position ≠ 0#7 then .ok (.singleCorrectableError position)
  else if outcome = 0b10#2 ∧ position = 0#7 then .ok .doubleErrorDetected
  else .error (.neverDriven outcome position)

/-- What a consumer reads from the decoder's output ports; the position is read only with `outcome = 01`
(30_encoding.md R43). -/
def State.readOutcome (s : State) : Except Fault DecodeOutcome := unbus s.decoder.outcome s.decoder.position

end Sys2Proof.Machine
end

