-- ==== Sys2Proof/Machine/Coverage.lean ====
section
/-! DEFINITION. The Parity Coverage Map: a constant of the hardware, with no storage (10_state.md R19). -/

namespace Sys2Proof.Machine

/-- Whether weight `w` covers position `p`: `p` is in `COVER_RANGE` and `(p & w) ≠ 0` (40_coverage_map.md R49). -/
def covers (w p : Nat) : Bool := decide (1 ≤ p) && decide (p ≤ Config.coverLast) && p &&& w != 0

/-- `{ p : 1 ≤ p ≤ 71 and (p & w) ≠ 0 }`, ascending (40_coverage_map.md R49). -/
def coverageSet (w : Nat) : List Nat := positions.filter (covers w)

/-- `coverage(w)`: defined for the seven weights, refused on anything else (40_coverage_map.md R49). -/
def coverage (w : Nat) : Except Refusal (List Nat) :=
  if w ∈ Config.weights then .ok (coverageSet w) else .error (.notAWeight w)

/-- `coverage(w) ∪ {w}`, the positions of the check `s_w`, ascending (42_decoder.md R63). -/
def checkSet (w : Nat) : List Nat := positions.filter fun p => covers w p || p == w

/-- The weights whose coverage contains `p` (40_coverage_map.md R53). -/
def coveringWeights (p : Nat) : List Nat := Config.weights.filter fun w => covers w p

/-- `M_w`, the coverage sets written out as masks, position p at bit p - 1 (40_coverage_map.md R50). Bits for the seven
weights only; 0 elsewhere is a filler that nothing reads. -/
def coverageMask (w : Nat) : Codeword :=
  if w = 1 then 0x555555555555555555#72
  else if w = 2 then 0x666666666666666666#72
  else if w = 4 then 0x787878787878787878#72
  else if w = 8 then 0x007f807f807f807f80#72
  else if w = 16 then 0x007fff80007fff8000#72
  else if w = 32 then 0x007fffffff80000000#72
  else if w = 64 then 0x7f8000000000000000#72
  else 0#72

end Sys2Proof.Machine
end

