-- ==== Sys2Proof/Machine/Flags.lean ====
section
/-! DEFINITION. The status-like values. The blocks have no flags (10_state.md R18); what plays their part is the
decoder's internal signals `s_w`, `S` and `P`, functions of the codeword that are not state (R20), and the classifier. -/

namespace Sys2Proof.Machine

/-- `s_w`: the XOR of the codeword over `coverage(w) ∪ {w}` (42_decoder.md R63). -/
def checkBit (c : Codeword) (w : Nat) : Bool := xorOver (checkSet w) (bitAt c)

/-- `S = Σ_w s_w·w` (42_decoder.md R64; conflict C1 rejects the form with the index of w). -/
def syndrome (c : Codeword) : Syndrome :=
  BitVec.ofNat 7 (Config.weights.map fun w => (checkBit c w).toNat * w).sum

/-- `P`: the XOR of all 72 positions (42_decoder.md R65). -/
def overallParity (c : Codeword) : Bool := xorOver positions (bitAt c)

/-- The classifier's four rows (42_decoder.md R66). A syndrome of 72 or more with odd parity is reported raw (R72). -/
def classify (S : Syndrome) (P : Bool) : DecodeOutcome :=
  if S = 0#7 ∧ P = false then .noError
  else if S ≠ 0#7 ∧ P = true then .singleCorrectableError S
  else if S ≠ 0#7 ∧ P = false then .doubleErrorDetected
  else .singleCorrectableError (BitVec.ofNat 7 Config.posOverall)

/-- The check bits the decoder carries for its present input (10_state.md R20). -/
def State.checkBit (s : State) (w : Nat) : Bool := Sys2Proof.Machine.checkBit s.decoder.cw w

/-- The syndrome the decoder carries for its present input (10_state.md R20). -/
def State.syndrome (s : State) : Syndrome := Sys2Proof.Machine.syndrome s.decoder.cw

/-- The overall parity the decoder carries for its present input (10_state.md R20). -/
def State.overallParity (s : State) : Bool := Sys2Proof.Machine.overallParity s.decoder.cw

end Sys2Proof.Machine
end

