-- ==== Sys2Proof/Machine/Decoder.lean ====
section
/-! DEFINITION. DECODE, the one operation of `hamming_72_64_decoder_syndrome_classifier` (42_decoder.md R62). -/

namespace Sys2Proof.Machine

/-- `DECODE(c)` on the 72-bit port (42_decoder.md R62): a diagnosis only, no corrected data (R61). -/
def decodeWord (c : Codeword) : DecodeOutcome := classify (syndrome c) (overallParity c)

/-- `DECODE` at the sequence-typed boundary: the length check comes first (42_decoder.md R62, R74). The access is the whole
72-bit codeword at once: no part of a word is read, no alignment is checked and nothing is fetched (20_memory.md R29,
R30). -/
def decodeSeq (c : List Bool) : Except Fault DecodeOutcome :=
  if c.length = Config.nCode then .ok (decodeWord (codewordOfSeq c)) else .error (invalidLength .decode c.length)

/-- `DECODE`: the decoder's input port takes the codeword and its output ports the bus form of the diagnosis; nothing
else changes (42_decoder.md R62, 30_encoding.md R46). On a wrong length, `InvalidLength` and no output (R74). -/
def execDecode (c : List Bool) (s : State) : Host.Outcome State Fault Refusal :=
  match decodeSeq c with
  | .ok o => .next (s.writeDecoder (codewordOfSeq c) (bus o))
  | .error _ => raiseInvalidLength .decode c.length

end Sys2Proof.Machine
end

