-- ==== Sys2Proof/Machine/Encoder.lean ====
section
/-! DEFINITION. ENCODE, the one operation of `hamming_72_64_encoder` (41_encoder.md R55). -/

namespace Sys2Proof.Machine

/-- Steps 1 and 2 of R55: from the all-zero codeword, walk the positions 1..72 in order; each payload position takes
the next unused payload bit. The pair is the codeword so far and k, the next payload index. -/
def placeStep (d : Payload) (ck : Codeword × Nat) (p : Nat) : Codeword × Nat :=
  if isParityPos p then ck else (setAt ck.1 p (d.getLsbD ck.2), ck.2 + 1)

/-- Steps 1 and 2 of R55, whole. -/
def placePayload (d : Payload) : Codeword := (positions.foldl (placeStep d) (0#72, 0)).1

/-- Step 3 of R55 for one weight: position w takes the XOR over `coverage(w)`, which reads `c⟨w⟩` as it stands. -/
def setHamming (c : Codeword) (w : Nat) : Codeword := setAt c w (xorOver (coverageSet w) (bitAt c))

/-- Step 4 of R55: position 72 takes the XOR over 1..72, which reads `c⟨72⟩` as it stands. -/
def setOverall (c : Codeword) : Codeword := setAt c Config.posOverall (xorOver positions (bitAt c))

/-- R55 with step 3 taken in the order of `ws`; the spec allows any order (40_coverage_map.md R52). -/
def encodeInOrder (ws : List Nat) (d : Payload) : Codeword := setOverall (ws.foldl setHamming (placePayload d))

/-- `ENCODE(d)` on the 64-bit port (41_encoder.md R55). -/
def encodeWord (d : Payload) : Codeword := encodeInOrder Config.weights d

/-- `ENCODE` at the sequence-typed boundary: the length check comes first (41_encoder.md R55, R59). The access is the whole
64-bit word at once: no part of a word is read, no alignment is checked and nothing is fetched (20_memory.md R29, R30). -/
def encodeSeq (d : List Bool) : Except Fault Codeword :=
  if d.length = Config.nData then .ok (encodeWord (payloadOfSeq d)) else .error (invalidLength .encode d.length)

/-- `ENCODE`: the encoder's input port takes the payload and its output port the codeword; nothing else changes
(41_encoder.md R55, R56). On a wrong length, `InvalidLength` and no output (R59). -/
def execEncode (d : List Bool) (s : State) : Host.Outcome State Fault Refusal :=
  match encodeSeq d with
  | .ok c => .next (s.writeEncoder (payloadOfSeq d) c)
  | .error _ => raiseInvalidLength .encode d.length

end Sys2Proof.Machine
end

