-- ==== Sys2Proof/Machine/Dispatch.lean ====
section
/-! DEFINITION. One arm for each instruction. -/

namespace Sys2Proof.Machine

-- What each instruction does (30_encoding.md R48).
def exec (i : Instr) (s : State) : Host.Outcome State Fault Refusal :=
  match i with
  | .encode d => Sys2Proof.Machine.execEncode d s
  | .decode c => Sys2Proof.Machine.execDecode c s

end Sys2Proof.Machine
end

