-- ==== Sys2Proof/Machine/Fetch.lean ====
section
/-! DEFINITION. Presenting a drive to its block. -/

namespace Sys2Proof.Machine

/-- A drive's instruction runs; a drive of the wrong length is `InvalidLength` and no output exists
(30_encoding.md R45, 60_exceptions.md R76). -/
def runDrive (v : Drive) (s : State) : Host.Outcome State Fault Refusal :=
  match decode v with
  | .ok i => exec i s
  | .error (.invalidLength op n) => raiseInvalidLength op n

/-- `s` with `v` as the very next drive. -/
def State.present (s : State) (v : Drive) : State := { s with inputs := v :: s.inputs }

end Sys2Proof.Machine
end

