-- ==== Sys2Proof/Machine/Step.lean ====
section
/-! DEFINITION. One step: the next drive is presented to its block, which answers it at once. -/

namespace Sys2Proof.Machine

/-- One step. The oldest drive is taken and its instruction run; a drive of the wrong length is `InvalidLength`
(30_encoding.md R45). With nothing to present the ports stand as they are: DESIGN CHOICE (log entry 3), safe. -/
def step (s : State) : Host.Outcome State Fault Refusal :=
  match s.inputs with
  | [] => .next s
  | v :: rest => runDrive v { s with inputs := rest }

/-- `s` with the drive of this table word as the very next one (log entry 1). A number that does not fit the width
(`w ≥ 2 ^ nbits`) is presented by its low `nbits` bits, where `decodeTableWord` refuses it: DESIGN CHOICE (log entry 14),
unsafe. -/
def State.withFetchWord (s : State) (nbits w : Nat) : State := s.present (tableDrive nbits w)

end Sys2Proof.Machine
end

