-- ==== Sys2Proof/Machine/Harness.lean ====
section
/-! DEFINITION. The caller's part of the spec's harness notation (30_encoding.md R47): `FLIP` is `flip`, `EXTRACT` is
`extract`, and the branch `if o is Single(p) then c := FLIP c, p` is `correctIfSingle`. They are not operations of the
hardware: the scope (00_scope.md R4) keeps them only so that the guarantees can be stated. -/

namespace Sys2Proof.Machine

/-- One `FLIP` after another, in the order of the list (30_encoding.md R47). -/
def flipAll : List Nat → Codeword → Except Refusal Codeword
  | [], c => .ok c
  | p :: ps, c => (flip c p).bind (flipAll ps)

/-- What the harness branch ends in. -/
inductive CallerResult where
  /-- the reported position was flipped back -/
  | corrected (c : Codeword)
  /-- the harness stops (93_implementation_defined.md I11); nothing was flipped -/
  | stopped
  deriving DecidableEq, Repr

/-- The harness branch: it flips only on a single error with a position in 1..72, and stops otherwise
(70_reset_and_hazards.md R90, R91; 93_implementation_defined.md I11). DEDUCED (log entry 7), safe: it stops on NoError
too. -/
def correctIfSingle (o : DecodeOutcome) (c : Codeword) : CallerResult :=
  match o with
  | .singleCorrectableError p =>
    match flip c p.toNat with
    | .ok c' => .corrected c'
    | .error _ => .stopped
  | .noError => .stopped
  | .doubleErrorDetected => .stopped

end Sys2Proof.Machine
end

