-- ==== Sys2Proof/Machine/Trees.lean ====
section
/-! DEFINITION. The closed forms the spec gives beside the two operations: the XOR trees of the hardware. exec does not
use them; the statements say they agree with ENCODE and DECODE on every input. -/

namespace Sys2Proof.Machine

/-- The mask of each check bit's XOR tree, by the bit's position: bit k stands for `data[k]` (41_encoder.md R57). Masks
for the eight parity positions only; 0 elsewhere is a filler that nothing reads. -/
def treeMask (p : Nat) : Payload :=
  if p = 1 then 0xab55555556aaad5b#64
  else if p = 2 then 0xcd9999999b33366d#64
  else if p = 4 then 0xf1e1e1e1e3c3c78e#64
  else if p = 8 then 0x01fe01fe03fc07f0#64
  else if p = 16 then 0x01fffe0003fff800#64
  else if p = 32 then 0x01fffffffc000000#64
  else if p = 64 then 0xfe00000000000000#64
  else if p = 72 then 0x972cd2d32da65cb7#64
  else 0#64

/-- The output bit at position p, by the equations of 41_encoder.md R57. -/
def encodeTree (d : Payload) (p : Nat) : Bool :=
  if isParityPos p then parity (d &&& treeMask p) else d.getLsbD (payloadIdx p)

/-- The codeword by the equations of 41_encoder.md R57. -/
def encodeTrees (d : Payload) : Codeword := codewordOfSeq (positions.map (encodeTree d))

/-- `S[6:0] = {s_64, …, s_1}` with `s_w = parity(cw & M_w)` (42_decoder.md R67). -/
def syndromeTrees (c : Codeword) : Syndrome :=
  BitVec.ofNat 7 (natOfBits (Config.weights.map fun w => parity (c &&& coverageMask w)))

/-- The port logic of 42_decoder.md R67. -/
def decodeTrees (c : Codeword) : BitVec 2 × BitVec 7 :=
  let S := syndromeTrees c
  let P := parity c
  (if S = 0#7 ∧ P = false then 0b00#2 else if P then 0b01#2 else 0b10#2,
   if P then (if S = 0#7 then 72#7 else S) else 0#7)

end Sys2Proof.Machine
end

