-- ==== Sys2Proof/Safety.lean ====
section
/-! DEFINITION. What the statements mean by a good state. -/

namespace Sys2Proof.Machine

/-- The outputs are the functions of the present inputs: `cw` is `ENCODE(data)` and `(outcome, position)` is the bus
form of `DECODE(cw)` (10_state.md R14, R15, R24). -/
abbrev State.PortsFollowInputs (s : State) : Prop :=
  s.encoder.cw = encodeWord s.encoder.data ∧
    (s.decoder.outcome, s.decoder.position) = bus (decodeWord s.decoder.cw)

/-- The caller keeps its contract: every drive still to be presented has its block's length
(70_reset_and_hazards.md R90). -/
abbrev State.WellDriven (s : State) : Prop :=
  ∀ v ∈ s.inputs, v.bits.length = Config.inputLength v.block.operation

/-- In every state, ENCODE of the payload word `d` ends in the next state whose encoder ports carry `d` and `c`, and
nothing else has changed. -/
def EncodesTo (d : Payload) (c : Codeword) : Prop :=
  ∀ s : State, exec (.encode (seqOfWord d)) s = .next { s with encoder := { data := d, cw := c } }

/-- In every state, DECODE of the codeword word `c` ends in the next state whose decoder ports carry `c` and the bus
form of `o` (30_encoding.md R46), and nothing else has changed. -/
def DecodesTo (c : Codeword) (o : DecodeOutcome) : Prop :=
  ∀ s : State, exec (.decode (seqOfWord c)) s =
    .next { s with decoder := { cw := c, outcome := (bus o).1, position := (bus o).2 } }

/-- A word differs from another in how many positions: the number of flips between them. -/
def distance (a b : Codeword) : Nat := popcount (a ^^^ b)

/-- The XOR of the positions of `ps` that lie in 1..71, as a 7-bit number (42_decoder.md R71). -/
def xorOfPositions (ps : List Nat) : Syndrome :=
  ps.foldr (fun p x => (if p ≤ Config.coverLast then BitVec.ofNat 7 p else 0) ^^^ x) 0

end Sys2Proof.Machine
end

