-- ==== Sys2Proof/Certificates/Slice0/Obligations.lean ====
section
/-! DEFINITION. The statements for the provers. Each docstring names the rule of spec/ it formalises, or the choice of the
model it rests on. No statement here is about a program. -/

open Sys2Proof Sys2Proof.Machine

/-! Reset, steps and runs -/

/-- 10_state.md R24: after power-on each output is the function of its input. That nothing waits to be presented and
that the inputs are 0 is the model's choice (log entries 1 and 2). -/
def Obligations.ResetOutputsAreTheBlockFunctions : Prop :=
  State.reset.PortsFollowInputs ∧ State.reset.inputs = []

/-- 10_state.md R14, R15: `cw` is at all times `ENCODE(data)` and `(outcome, position)` the bus form of `DECODE(cw)`:
an invariant that every step keeps. -/
def Obligations.EveryStepKeepsOutputsEqualToTheBlockFunctions : Prop :=
  ∀ s t : State, s.PortsFollowInputs → step s = .next t → t.PortsFollowInputs

/-- 60_exceptions.md R79 for runs of any length: a caller that keeps its contract (70_reset_and_hazards.md R90) never
sees a fault or a refusal, each step presents one drive, and the outputs follow the inputs throughout. -/
def Obligations.WellDrivenRunsNeverStop : Prop :=
  ∀ s : State, s.WellDriven → s.PortsFollowInputs → ∀ k : Nat,
    ∃ t : State, core.run k s = .next t ∧ t.PortsFollowInputs ∧ t.WellDriven ∧ t.inputs = s.inputs.drop k

/-- When the oldest drive decodes to an instruction, that instruction is well-formed and the step is exec of it, in the
state from which the drive has been taken. -/
def Obligations.StepRunsTheDecodedInstruction : Prop :=
  ∀ (s : State) (v : Drive) (rest : List Drive) (i : Instr),
    s.inputs = v :: rest → decode v = .ok i → i.WellFormed ∧ step s = exec i { s with inputs := rest }

/-- The model's choice (log entry 3): with nothing to present, a step leaves the state. -/
def Obligations.StepWithNothingToPresentLeavesTheState : Prop :=
  ∀ s : State, s.inputs = [] → step s = .next s

/-- 30_encoding.md R45, 60_exceptions.md R76 at the step: a drive of the wrong length ends in `InvalidLength` of its
block's operation, with the length received. -/
def Obligations.StepOnAWrongLengthIsInvalidLength : Prop :=
  ∀ (s : State) (v : Drive) (rest : List Drive), s.inputs = v :: rest →
    v.bits.length ≠ Config.inputLength v.block.operation →
    step s = .fault (.invalidLength v.block.operation v.bits.length)

/-- A presented word of the opcode table runs as the very next instruction, in the state as it was. -/
def Obligations.StepRunsAPresentedTableWord : Prop :=
  ∀ (s : State) (nbits w : Nat) (i : Instr),
    decodeTableWord nbits w = some i → step (s.withFetchWord nbits w) = exec i s

/-! InvalidLength and totality -/

/-- 60_exceptions.md R76: ENCODE raises `InvalidLength` exactly when n ≠ 64 and DECODE exactly when n ≠ 72, it records
the operation and n, its code is 1, and no next state (no output) exists then. -/
def Obligations.InvalidLengthIsRaisedExactlyOnWrongLengths : Prop :=
  (∀ (bits : List Bool) (s : State),
      (exec (.encode bits) s = .fault (.invalidLength .encode bits.length) ↔ bits.length ≠ 64) ∧
      (exec (.decode bits) s = .fault (.invalidLength .decode bits.length) ↔ bits.length ≠ 72) ∧
      (bits.length ≠ 64 → ∀ t, exec (.encode bits) s ≠ .next t) ∧
      (bits.length ≠ 72 → ∀ t, exec (.decode bits) s ≠ .next t)) ∧
    (∀ (op : Operation) (n : Nat), (Fault.invalidLength op n).code = some 1)

/-- 60_exceptions.md R79: apart from `InvalidLength` no input makes either block fault, hang or give an undefined
result. Every well-formed instruction ends in a next state, every other one in `InvalidLength`. -/
def Obligations.NoInputButAWrongLengthFaults : Prop :=
  ∀ (i : Instr) (s : State),
    (i.WellFormed → ∃ t, exec i s = .next t) ∧
    (¬ i.WellFormed → exec i s = .fault (.invalidLength i.operation i.operand.length))

/-! Decode and encode of table words -/

/-- For every well-formed instruction, with every operand value, the word in the opcode table's numbering decodes to
it. -/
def Obligations.TableWordOfAnInstructionDecodesToIt : Prop :=
  ∀ i : Instr, i.WellFormed → decodeTableWord (encodeTableWord i).1 (encodeTableWord i).2 = some i

/-- 30_encoding.md R37, R48: the words that decode are exactly the 64-bit words, each an ENCODE, and the 72-bit words,
each a DECODE; none is dropped or changed. That a number `w ≥ 2 ^ nbits` decodes to nothing is no sentence of those
rules: it is the model's choice (log entry 14). -/
def Obligations.TableWordsAreTheTwoRows : Prop :=
  ∀ nbits w : Nat,
    ((∃ i, decodeTableWord nbits w = some i) ↔ (nbits = 64 ∨ nbits = 72) ∧ w < 2 ^ nbits) ∧
    (∀ i, decodeTableWord nbits w = some i →
      i.WellFormed ∧ encodeTableWord i = (nbits, w) ∧ (i.operation = .encode ↔ nbits = 64))

/-- Words written out from the layout of 30_encoding.md R38: bit 0 alone and bit 63 alone of a payload; position 42
alone and position 72 alone of a codeword. -/
def Obligations.WordsWrittenOutFromTheLayoutDecode : Prop :=
  decodeTableWord 64 0x0000000000000001 = some (.encode (true :: List.replicate 63 false)) ∧
  decodeTableWord 64 0x8000000000000000 = some (.encode (List.replicate 63 false ++ [true])) ∧
  decodeTableWord 72 0x000000020000000000 =
    some (.decode (List.replicate 41 false ++ [true] ++ List.replicate 30 false)) ∧
  decodeTableWord 72 0x800000000000000000 = some (.decode (List.replicate 71 false ++ [true])) ∧
  decodeTableWord 63 0 = none ∧ decodeTableWord 65 0 = none ∧ decodeTableWord 71 0 = none ∧
  decodeTableWord 73 0 = none

/-- 20_memory.md R25, R26: element k of a payload sequence is `data[k]`, and the payload read as a number is
`Σ data[k]·2^k`; element p - 1 of a codeword sequence is position p. -/
def Obligations.SequenceElementsAreBusBits : Prop :=
  (∀ l : List Bool, l.length = 64 →
    (∀ k, k < 64 → (payloadOfSeq l).getLsbD k = l.getD k false) ∧
    (payloadOfSeq l).toNat = ((List.range 64).map fun k => (l.getD k false).toNat * 2 ^ k).sum) ∧
  (∀ l : List Bool, l.length = 72 → ∀ p, IsPosition p → bitAt (codewordOfSeq l) p = l.getD (p - 1) false)

/-! Positions and the payload placement -/

/-- 10_state.md R21: each position of 1..72 is bus bit p - 1, read by `GetPos`, written by `SetPos`, inverted by `Flip`;
any other position is refused by all three. -/
def Obligations.OnlyPositions1To72AreReached : Prop :=
  ∀ (c : Codeword) (p : Nat) (b : Bool),
    (1 ≤ p ∧ p ≤ 72 →
      getPos c p = .ok (c.getLsbD (p - 1)) ∧
      (∃ c', setPos c p b = .ok c' ∧ c'.getLsbD (p - 1) = b) ∧
      (∃ c', flip c p = .ok c' ∧ c'.getLsbD (p - 1) = !c.getLsbD (p - 1))) ∧
    (¬ (1 ≤ p ∧ p ≤ 72) →
      getPos c p = .error (.positionOutOfRange p) ∧
      setPos c p b = .error (.positionOutOfRange p) ∧
      flip c p = .error (.positionOutOfRange p))

/-- 00_scope.md R10, the frame of `SetPos` and `Flip`: every other position reads as before, and two flips of one
position give the word back. -/
def Obligations.SetAndFlipChangeOnePosition : Prop :=
  ∀ (c c' : Codeword) (p q : Nat) (b : Bool), q ≠ p →
    (setPos c p b = .ok c' → getPos c' q = getPos c q ∧ getPos c' p = .ok b) ∧
    (flip c p = .ok c' → getPos c' q = getPos c q ∧ flip c' p = .ok c)

/-- 20_memory.md R28: the parity positions are the seven weights and 72; the other 64 positions of 1..72 are the payload
positions, in the ranges the rule gives. -/
def Obligations.PayloadPositionsAreThe64Others : Prop :=
  (∀ p : Nat, isParityPos p = true ↔ p ∈ [1, 2, 4, 8, 16, 32, 64, 72]) ∧
  positions.filter (fun p => !isParityPos p) =
    [3] ++ List.range' 5 3 ++ List.range' 9 7 ++ List.range' 17 15 ++ List.range' 33 31 ++ List.range' 65 7 ∧
  (positions.filter (fun p => !isParityPos p)).length = 64

/-- 30_encoding.md R39: `pos` sends 0..63 in ascending order onto the payload positions, `idx` is its inverse, `Extract`
reads payload bit k at `pos(k)`, and `Extract(ENCODE(d)) = d`. -/
def Obligations.PlacementIsABijectionAndExtractUndoesEncode : Prop :=
  (∀ k, k < 64 → IsPosition (payloadPos k) ∧ isParityPos (payloadPos k) = false ∧ payloadIdx (payloadPos k) = k) ∧
  (∀ p, IsPosition p → isParityPos p = false → payloadIdx p < 64 ∧ payloadPos (payloadIdx p) = p) ∧
  (∀ j k, j < k → k < 64 → payloadPos j < payloadPos k) ∧
  (∀ (c : Codeword) (k : Nat), k < 64 → (extract c).getLsbD k = bitAt c (payloadPos k)) ∧
  (∀ d : Payload, ∃ c, EncodesTo d c ∧ extract c = d)

/-! The Coverage Map -/

/-- 40_coverage_map.md R49: `coverage(w)` holds exactly the positions of 1..71 with `p & w ≠ 0`, and is refused for
every argument but the seven weights. -/
def Obligations.CoverageIsDefinedForTheSevenWeights : Prop :=
  ∀ w : Nat,
    (w ∈ [1, 2, 4, 8, 16, 32, 64] →
      ∃ ps, coverage w = .ok ps ∧ ∀ p, p ∈ ps ↔ 1 ≤ p ∧ p ≤ 71 ∧ p &&& w ≠ 0) ∧
    (w ∉ [1, 2, 4, 8, 16, 32, 64] → coverage w = .error (.notAWeight w))

/-- 40_coverage_map.md R50: the masks, sizes and members written out. -/
def Obligations.CoverageMasksAndSizes : Prop :=
  (∀ w ∈ Config.weights, ∀ p ∈ positions, bitAt (coverageMask w) p = decide (p ∈ coverageSet w)) ∧
  Config.weights.map (fun w => (coverageSet w).length) = [36, 36, 36, 32, 32, 32, 8] ∧
  Config.weights.map coverageMask =
    [0x555555555555555555#72, 0x666666666666666666#72, 0x787878787878787878#72, 0x007f807f807f807f80#72,
      0x007fff80007fff8000#72, 0x007fffffff80000000#72, 0x7f8000000000000000#72] ∧
  coverageSet 1 = (List.range' 1 71).filter (fun p => p % 2 == 1) ∧
  coverageSet 2 = (List.range' 2 70).filter (fun p => p % 4 == 2 || p % 4 == 3) ∧
  coverageSet 4 = (List.range' 4 68).filter (fun p => decide (4 ≤ p % 8)) ∧
  coverageSet 8 = List.range' 8 8 ++ List.range' 24 8 ++ List.range' 40 8 ++ List.range' 56 8 ∧
  coverageSet 16 = List.range' 16 16 ++ List.range' 48 16 ∧
  coverageSet 32 = List.range' 32 32 ∧
  coverageSet 64 = List.range' 64 8 ∧
  (∀ w ∈ Config.weights, (coverageMask w).getLsbD 71 = false)

/-- 40_coverage_map.md R53: for p in 1..71 the covering weights are the powers of two in p and sum to p; 72 alone has
none; distinct positions have distinct covering sets. -/
def Obligations.CoveringWeightsAreTheBinaryDigitsOfThePosition : Prop :=
  (∀ p ∈ List.range' 1 71, ∀ j < 7, (2 ^ j ∈ coveringWeights p ↔ p.testBit j = true)) ∧
  (∀ p ∈ List.range' 1 71, (coveringWeights p).sum = p ∧ coveringWeights p ≠ []) ∧
  coveringWeights 72 = [] ∧
  (∀ p ∈ positions, coveringWeights p = [] → p = 72) ∧
  (∀ p ∈ List.range' 1 71, ∀ q ∈ List.range' 1 71, coveringWeights p = coveringWeights q → p = q)

/-- 40_coverage_map.md R52: the only parity position in `coverage(w)` is w itself, so the seven parity bits may be
computed in any order. -/
def Obligations.OrderOfTheParityBitsDoesNotMatter : Prop :=
  (∀ w ∈ Config.weights, (coverageSet w).filter isParityPos = [w]) ∧
  (∀ (ws : List Nat) (d : Payload), ws.Perm Config.weights → encodeInOrder ws d = encodeWord d)

/-! ENCODE -/

/-- 41_encoder.md R57: ENCODE of every 64-element sequence ends in the next state whose encoder ports carry that payload
and the codeword of the closed-form equations, and nothing else has changed; the masks are those of the rule's two
sentences about them. -/
def Obligations.EncodeDrivesTheXorTrees : Prop :=
  (∀ (bits : List Bool) (s : State), bits.length = 64 → ∃ c : Codeword,
    exec (.encode bits) s = .next { s with encoder := { data := payloadOfSeq bits, cw := c } } ∧
    c.getLsbD 0 = parity (payloadOfSeq bits &&& 0xab55555556aaad5b#64) ∧
    c.getLsbD 1 = parity (payloadOfSeq bits &&& 0xcd9999999b33366d#64) ∧
    c.getLsbD 3 = parity (payloadOfSeq bits &&& 0xf1e1e1e1e3c3c78e#64) ∧
    c.getLsbD 7 = parity (payloadOfSeq bits &&& 0x01fe01fe03fc07f0#64) ∧
    c.getLsbD 15 = parity (payloadOfSeq bits &&& 0x01fffe0003fff800#64) ∧
    c.getLsbD 31 = parity (payloadOfSeq bits &&& 0x01fffffffc000000#64) ∧
    c.getLsbD 63 = parity (payloadOfSeq bits &&& 0xfe00000000000000#64) ∧
    c.getLsbD 71 = parity (payloadOfSeq bits &&& 0x972cd2d32da65cb7#64) ∧
    (∀ k, k < 64 → c.getLsbD (payloadPos k - 1) = bits.getD k false) ∧
    c = encodeTrees (payloadOfSeq bits)) ∧
  (∀ w ∈ Config.weights, ∀ k < 64, (treeMask w).getLsbD k = (payloadPos k &&& w != 0)) ∧
  (∀ k < 64, (treeMask 72).getLsbD k = (popcount (BitVec.ofNat 7 (payloadPos k)) % 2 == 0)) ∧
  Config.weights.map (fun w => popcount (treeMask w)) = [35, 35, 35, 31, 31, 31, 7]

/-- 41_encoder.md R56: the XOR over `coverage(w) ∪ {w}`, and over `coverage(w)`, is 0 for every weight, the XOR over all
72 positions is 0, `Extract` gives the payload back, and there is no side effect: the decoder's ports and what waits to
be presented are unchanged. -/
def Obligations.EncodeOutputPassesEveryCheck : Prop :=
  ∀ (bits : List Bool) (s t : State), exec (.encode bits) s = .next t →
    (∀ w ∈ Config.weights, xorOver (checkSet w) (bitAt t.encoder.cw) = false ∧
      xorOver (coverageSet w) (bitAt t.encoder.cw) = false) ∧
    xorOver positions (bitAt t.encoder.cw) = false ∧
    extract t.encoder.cw = payloadOfSeq bits ∧
    t.encoder.data = payloadOfSeq bits ∧ t.decoder = s.decoder ∧ t.inputs = s.inputs

/-- 41_encoder.md R60: ENCODE is total on 64-bit inputs, its result is the same in every state, and it is linear over
XOR. -/
def Obligations.EncodeIsTotalAndLinear : Prop :=
  (∀ d : Payload, EncodesTo d (encodeWord d)) ∧
  (∀ a b : Payload, encodeWord (a ^^^ b) = encodeWord a ^^^ encodeWord b) ∧
  encodeWord 0 = 0

/-- 41_encoder.md R58: the four corner values. -/
def Obligations.EncodeCornerValues : Prop :=
  EncodesTo 0x0000000000000000 0x000000000000000000 ∧
  EncodesTo 0xffffffffffffffff 0xffffffffffffffffff ∧
  EncodesTo 0x0000000000000001 0x800000000000000007 ∧
  EncodesTo 0x8000000000000000 0xc0800000000000000b

/-- 42_decoder.md R71, third consequence: no fewer than four flips turn the codeword of one payload into that of
another. -/
def Obligations.CodewordsOfDistinctPayloadsDifferInFourPositions : Prop :=
  (∀ a b : Payload, a ≠ b → ∃ x y, EncodesTo a x ∧ EncodesTo b y ∧ 4 ≤ distance x y) ∧
  (∃ a b x y, a ≠ b ∧ EncodesTo a x ∧ EncodesTo b y ∧ distance x y = 4)

/-! DECODE -/

/-- 42_decoder.md R63: `coverage(w) ∪ {w}` is `coverage(w)`, `s_w` is the XOR over it and equals `parity(cw & M_w)`, and
the seven checks are independent: they take every combination of values. -/
def Obligations.ChecksAreTheMaskParities : Prop :=
  (∀ w ∈ Config.weights, checkSet w = coverageSet w ∧ w ∈ coverageSet w) ∧
  (∀ (c : Codeword), ∀ w ∈ Config.weights,
    checkBit c w = xorOver (coverageSet w) (bitAt c) ∧ checkBit c w = parity (c &&& coverageMask w)) ∧
  (∀ f : Nat → Bool, ∃ c : Codeword, ∀ w ∈ Config.weights, checkBit c w = f w)

/-- 42_decoder.md R64: `S = Σ_w s_w·w` without carries, so `S[j] = s_{2^j}`, and S takes every value of 0..127. -/
def Obligations.SyndromeBitsAreTheChecks : Prop :=
  (∀ c : Codeword,
    (syndrome c).toNat = (Config.weights.map fun w => (checkBit c w).toNat * w).sum ∧
    ∀ j, j < 7 → (syndrome c).getLsbD j = checkBit c (2 ^ j)) ∧
  (∀ v : Syndrome, ∃ c, syndrome c = v)

/-- 42_decoder.md R65: P is the XOR of all 72 bits, position 72 included. -/
def Obligations.OverallParityIsTheXorOfAll72Bits : Prop :=
  ∀ c : Codeword, overallParity c = xorOver (List.range' 1 72) (bitAt c) ∧ overallParity c = parity c

/-- 42_decoder.md R67: DECODE of every 72-element sequence ends in the next state whose decoder ports carry that codeword
and the outputs of the port logic, and nothing else has changed. -/
def Obligations.DecodeDrivesThePortLogic : Prop :=
  ∀ (bits : List Bool) (s : State), bits.length = 72 →
    exec (.decode bits) s =
      .next { s with
        decoder := {
          cw := codewordOfSeq bits
          outcome := (decodeTrees (codewordOfSeq bits)).1
          position := (decodeTrees (codewordOfSeq bits)).2 } }

/-- 42_decoder.md R66: the four rows of the classifier, as a consumer reads them from the ports. -/
def Obligations.ClassifierHasFourRows : Prop :=
  ∀ (bits : List Bool) (s : State), bits.length = 72 → ∃ t, exec (.decode bits) s = .next t ∧
    (t.syndrome = 0 → t.overallParity = false → t.readOutcome = .ok .noError) ∧
    (t.syndrome ≠ 0 → t.overallParity = true → t.readOutcome = .ok (.singleCorrectableError t.syndrome)) ∧
    (t.syndrome ≠ 0 → t.overallParity = false → t.readOutcome = .ok .doubleErrorDetected) ∧
    (t.syndrome = 0 → t.overallParity = true → t.readOutcome = .ok (.singleCorrectableError 72))

/-- 30_encoding.md R44: DECODE never drives a reserved pair, so a consumer always reads an outcome; reading `11` faults. -/
def Obligations.ReservedOutputsAreNeverDriven : Prop :=
  (∀ (bits : List Bool) (s t : State), exec (.decode bits) s = .next t →
    t.decoder.outcome ≠ 0b11#2 ∧
    (t.decoder.outcome = 0b01#2 → t.decoder.position ≠ 0) ∧
    (t.decoder.outcome = 0b00#2 ∨ t.decoder.outcome = 0b10#2 → t.decoder.position = 0) ∧
    t.readOutcome = .ok (decodeWord t.decoder.cw)) ∧
  (∀ q : BitVec 7, unbus 0b11#2 q = .error (.neverDriven 0b11#2 q))

/-- 30_encoding.md R42, R43, R46: `bus`, and `unbus` as its inverse. That `(01, 0)` is outside it follows R44 and vector
2.5 (log entry 4). -/
def Obligations.UnbusIsTheInverseOfBus : Prop :=
  bus .noError = (0b00#2, 0#7) ∧
  (∀ q, bus (.singleCorrectableError q) = (0b01#2, q)) ∧
  bus .doubleErrorDetected = (0b10#2, 0#7) ∧
  (∀ o : DecodeOutcome, o ≠ .singleCorrectableError 0 → unbus (bus o).1 (bus o).2 = .ok o) ∧
  (∀ (x : BitVec 2) (y : BitVec 7) (o : DecodeOutcome), unbus x y = .ok o →
    bus o = (x, y) ∧ o ≠ .singleCorrectableError 0) ∧
  (∀ (x : BitVec 2) (y : BitVec 7), (∀ o, o ≠ .singleCorrectableError 0 → bus o ≠ (x, y)) →
    unbus x y = .error (.neverDriven x y))

/-! The guarantees -/

/-- 42_decoder.md R68. -/
def Obligations.NoFlipIsNoError : Prop :=
  ∀ d : Payload, ∃ c, EncodesTo d c ∧ DecodesTo c .noError

/-- 42_decoder.md R69. -/
def Obligations.OneFlipIsReportedAtItsExactPosition : Prop :=
  ∀ (d : Payload) (p : Nat), 1 ≤ p ∧ p ≤ 72 → ∃ c c',
    EncodesTo d c ∧ flip c p = .ok c' ∧ DecodesTo c' (.singleCorrectableError (BitVec.ofNat 7 p))

/-- 42_decoder.md R70. -/
def Obligations.TwoFlipsAreAlwaysDetected : Prop :=
  ∀ (d : Payload) (p q : Nat), 1 ≤ p ∧ p ≤ 72 → 1 ≤ q ∧ q ≤ 72 → p ≠ q → ∃ c c' c'',
    EncodesTo d c ∧ flip c p = .ok c' ∧ flip c' q = .ok c'' ∧ DecodesTo c'' .doubleErrorDetected

/-- 42_decoder.md R71, first two consequences, for any number of flips of distinct positions: x is the XOR of the
flipped positions in 1..71. An odd number is reported as a single error at x, or at 72 when x is 0; an even number as a
double error, or as no error when x is 0. Nothing here says that a report is correct. -/
def Obligations.AnyFlipsAreClassifiedByTheXorOfTheirPositions : Prop :=
  ∀ (d : Payload) (ps : List Nat), ps.Nodup → (∀ p ∈ ps, 1 ≤ p ∧ p ≤ 72) → ∃ c c',
    EncodesTo d c ∧ flipAll ps c = .ok c' ∧
    (ps.length % 2 = 1 → DecodesTo c' (.singleCorrectableError
      (if xorOfPositions ps = 0 then 72 else xorOfPositions ps))) ∧
    (ps.length % 2 = 0 → DecodesTo c'
      (if xorOfPositions ps = 0 then .noError else .doubleErrorDetected))

/-- 42_decoder.md R72: with odd parity a syndrome of 72 or more is reported raw; it arises only from three or more
flips; every value of 72..127 occurs; a position above 72 is refused by `Flip`. The report 72 from such a syndrome is
the report that a flip of Q alone gives. -/
def Obligations.SyndromesFrom72UpAreReportedRaw : Prop :=
  (∀ c : Codeword, overallParity c = true → 72 ≤ (syndrome c).toNat →
    DecodesTo c (.singleCorrectableError (syndrome c))) ∧
  (∀ (d : Payload) (ps : List Nat) (c c' : Codeword), ps.Nodup → EncodesTo d c → flipAll ps c = .ok c' →
    overallParity c' = true → 72 ≤ (syndrome c').toNat → 3 ≤ ps.length) ∧
  (∀ v : Syndrome, 72 ≤ v.toNat → ∃ c, syndrome c = v ∧ DecodesTo c (.singleCorrectableError v)) ∧
  (∀ (c : Codeword) (v : Syndrome), 72 < v.toNat → flip c v.toNat = .error (.positionOutOfRange v.toNat)) ∧
  (∀ d : Payload, ∃ c c', EncodesTo d c ∧ flip c 72 = .ok c' ∧ DecodesTo c' (.singleCorrectableError 72))

/-- 42_decoder.md R73: after exactly one flip, flipping the reported position back gives the codeword, which decodes as
no error and holds the payload. -/
def Obligations.OneFlipIsCorrected : Prop :=
  ∀ (d : Payload) (p : Nat), 1 ≤ p ∧ p ≤ 72 → ∃ c c' q,
    EncodesTo d c ∧ flip c p = .ok c' ∧ DecodesTo c' (.singleCorrectableError q) ∧ q.toNat = p ∧
    flip c' p = .ok c ∧ correctIfSingle (.singleCorrectableError q) c' = .corrected c ∧
    DecodesTo c .noError ∧ extract c = d

/-- 42_decoder.md R75: for every error pattern e, S, P and the result depend on e alone and never on the payload. -/
def Obligations.DecodeDependsOnlyOnTheErrorPattern : Prop :=
  ∀ (d : Payload) (e : Codeword), ∃ c o,
    EncodesTo d c ∧ syndrome (c ^^^ e) = syndrome e ∧ overallParity (c ^^^ e) = overallParity e ∧
    DecodesTo (c ^^^ e) o ∧ DecodesTo e o

/-- 70_reset_and_hazards.md R92: for an odd number k ≥ 3 of flips, a correction leaves at least k - 1 wrong positions. -/
def Obligations.MiscorrectionLeavesTheOtherFlips : Prop :=
  ∀ (d : Payload) (c e c' : Codeword), EncodesTo d c → 3 ≤ popcount e → popcount e % 2 = 1 →
    correctIfSingle (decodeWord (c ^^^ e)) (c ^^^ e) = .corrected c' → popcount e - 1 ≤ distance c' c

/-- 70_reset_and_hazards.md R90, R91: the harness flips exactly a reported position of 1..72 and stops otherwise. -/
def Obligations.CallerFlipsOnlyAReportedPosition : Prop :=
  (∀ (c : Codeword) (p : BitVec 7), 1 ≤ p.toNat ∧ p.toNat ≤ 72 →
    ∃ c', flip c p.toNat = .ok c' ∧ correctIfSingle (.singleCorrectableError p) c = .corrected c') ∧
  (∀ (c : Codeword) (p : BitVec 7), ¬ (1 ≤ p.toNat ∧ p.toNat ≤ 72) →
    correctIfSingle (.singleCorrectableError p) c = .stopped) ∧
  (∀ c : Codeword, correctIfSingle .doubleErrorDetected c = .stopped)

/-! Calls and their frames -/

/-- The frame: ENCODE changes the encoder's ports alone and DECODE the decoder's alone; each input port carries the
operand (10_state.md R14, R15, 42_decoder.md R61). -/
def Obligations.OnlyTheDrivenBlockChanges : Prop :=
  ∀ (bits : List Bool) (s t : State),
    (exec (.encode bits) s = .next t →
      t.encoder.data = payloadOfSeq bits ∧ t.decoder = s.decoder ∧ t.inputs = s.inputs) ∧
    (exec (.decode bits) s = .next t →
      t.decoder.cw = codewordOfSeq bits ∧ t.encoder = s.encoder ∧ t.inputs = s.inputs)

/-- 20_memory.md R32: the result of a call never depends on another call. An ENCODE and a DECODE end in the same state
in either order, and the ports a call drives do not depend on the state it starts from. -/
def Obligations.CallsDoNotAffectEachOther : Prop :=
  (∀ (d c : List Bool) (s : State), d.length = 64 → c.length = 72 → ∃ s1 s2 t,
    exec (.encode d) s = .next s1 ∧ exec (.decode c) s1 = .next t ∧
    exec (.decode c) s = .next s2 ∧ exec (.encode d) s2 = .next t) ∧
  (∀ (bits : List Bool) (s s' t t' : State),
    (exec (.encode bits) s = .next t → exec (.encode bits) s' = .next t' → t.encoder = t'.encoder) ∧
    (exec (.decode bits) s = .next t → exec (.decode bits) s' = .next t' → t.decoder = t'.decoder))

/-- 20_memory.md R31: both operations are idempotent: the same call again leaves the state. -/
def Obligations.TheSameCallAgainChangesNothing : Prop :=
  ∀ (i : Instr) (s t : State), exec i s = .next t → exec i t = .next t

/-- 20_memory.md R29, R30: every access is a whole word at its own width, the decoder's input too. An operation completes
exactly on a sequence of its port's width, from every state (no alignment is asked for), and then its input port carries
every element of the sequence. -/
def Obligations.EveryAccessIsAWholeWord : Prop :=
  ∀ (bits : List Bool) (s : State),
    ((∃ t, exec (.encode bits) s = .next t) ↔ bits.length = 64) ∧
    ((∃ t, exec (.decode bits) s = .next t) ↔ bits.length = 72) ∧
    (∀ t, exec (.encode bits) s = .next t → seqOfWord t.encoder.data = bits) ∧
    (∀ t, exec (.decode bits) s = .next t → seqOfWord t.decoder.cw = bits)
end

