-- ==== Sys2Proof/Laws/State.lean ====
section
/-! SUPPORT. One small lemma for each field of each state update, so that no later proof unfolds a record update. -/

namespace Sys2Proof.Machine

@[simp] theorem State.writeEncoder_data (s : State) (d : Payload) (c : Codeword) :
    (s.writeEncoder d c).encoder.data = d := rfl
@[simp] theorem State.writeEncoder_cw (s : State) (d : Payload) (c : Codeword) :
    (s.writeEncoder d c).encoder.cw = c := rfl
@[simp] theorem State.writeEncoder_decoder (s : State) (d : Payload) (c : Codeword) :
    (s.writeEncoder d c).decoder = s.decoder := rfl
@[simp] theorem State.writeEncoder_inputs (s : State) (d : Payload) (c : Codeword) :
    (s.writeEncoder d c).inputs = s.inputs := rfl

@[simp] theorem State.writeDecoder_cw (s : State) (c : Codeword) (b : BitVec 2 × BitVec 7) :
    (s.writeDecoder c b).decoder.cw = c := rfl
@[simp] theorem State.writeDecoder_outcome (s : State) (c : Codeword) (b : BitVec 2 × BitVec 7) :
    (s.writeDecoder c b).decoder.outcome = b.1 := rfl
@[simp] theorem State.writeDecoder_position (s : State) (c : Codeword) (b : BitVec 2 × BitVec 7) :
    (s.writeDecoder c b).decoder.position = b.2 := rfl
@[simp] theorem State.writeDecoder_encoder (s : State) (c : Codeword) (b : BitVec 2 × BitVec 7) :
    (s.writeDecoder c b).encoder = s.encoder := rfl
@[simp] theorem State.writeDecoder_inputs (s : State) (c : Codeword) (b : BitVec 2 × BitVec 7) :
    (s.writeDecoder c b).inputs = s.inputs := rfl

@[simp] theorem State.present_inputs (s : State) (v : Drive) : (s.present v).inputs = v :: s.inputs := rfl
@[simp] theorem State.present_encoder (s : State) (v : Drive) : (s.present v).encoder = s.encoder := rfl
@[simp] theorem State.present_decoder (s : State) (v : Drive) : (s.present v).decoder = s.decoder := rfl

@[simp] theorem State.withFetchWord_inputs (s : State) (nbits w : Nat) :
    (s.withFetchWord nbits w).inputs = tableDrive nbits w :: s.inputs := rfl
@[simp] theorem State.withFetchWord_encoder (s : State) (nbits w : Nat) :
    (s.withFetchWord nbits w).encoder = s.encoder := rfl
@[simp] theorem State.withFetchWord_decoder (s : State) (nbits w : Nat) :
    (s.withFetchWord nbits w).decoder = s.decoder := rfl

end Sys2Proof.Machine
end

