-- ==== Sys2Proof/Laws/Positions.lean ====
section
/-! SUPPORT. Reading, writing and flipping positions, and exclusive OR over positions: what each operation does, said
once. -/

namespace Sys2Proof.Machine

/-- The position space in numbers. -/
theorem isPosition_iff (p : Nat) : IsPosition p ↔ 1 ≤ p ∧ p ≤ 72 := Iff.rfl

@[simp] theorem mem_positions (p : Nat) : p ∈ positions ↔ IsPosition p := by
  simp [positions, IsPosition, Config.nCode, List.mem_range'_1]; omega

/-- Two codewords with the same positions are equal. -/
theorem codeword_ext {a b : Codeword} (h : ∀ p, IsPosition p → bitAt a p = bitAt b p) : a = b := by
  apply BitVec.eq_of_getLsbD_eq
  intro i hi
  have := h (i + 1) ⟨by omega, by simp [Config.nCode]; omega⟩
  simpa [bitAt, posIndex] using this

/-- Writing a position changes that position and no other. -/
theorem bitAt_setAt (c : Codeword) (p q : Nat) (b : Bool) (hp : IsPosition p) (hq : IsPosition q) :
    bitAt (setAt c p b) q = if q = p then b else bitAt c q := by
  simp only [IsPosition, Config.nCode] at hp hq
  have hpq : p - 1 = q - 1 ↔ q = p := by omega
  have hlt : q - 1 < 72 := by omega
  cases b <;> by_cases hq' : q = p <;>
    simp [bitAt, setAt, posIndex, BitVec.getLsbD_twoPow, hq', hlt] <;> omega

@[simp] theorem bitAt_xor (a b : Codeword) (p : Nat) : bitAt (a ^^^ b) p = (bitAt a p ^^ bitAt b p) := by
  simp [bitAt]

@[simp] theorem bitAt_zero (p : Nat) : bitAt 0#72 p = false := by simp [bitAt]

theorem getPos_spec (c : Codeword) (p : Nat) :
    getPos c p = if IsPosition p then .ok (bitAt c p) else .error (.positionOutOfRange p) := rfl

theorem setPos_spec (c : Codeword) (p : Nat) (b : Bool) :
    setPos c p b = if IsPosition p then .ok (setAt c p b) else .error (.positionOutOfRange p) := rfl

/-- The one bit of position p, read at position q. -/
theorem bitAt_twoPow (p q : Nat) (hp : IsPosition p) (hq : IsPosition q) :
    bitAt (BitVec.twoPow 72 (posIndex p)) q = decide (q = p) := by
  simp only [IsPosition, Config.nCode] at hp hq
  have hlt : q - 1 < 72 := by omega
  have hpq : p - 1 = q - 1 ↔ q = p := by omega
  simp [bitAt, posIndex, hlt]
  omega

/-- Everything `flip` can do: refuse a position that does not exist, or invert the one it names. -/
theorem flip_spec (c : Codeword) (p : Nat) :
    flip c p = if IsPosition p then .ok (c ^^^ BitVec.twoPow 72 (posIndex p)) else .error (.positionOutOfRange p) := by
  by_cases hp : IsPosition p
  · have hset : setAt c p (true ^^ bitAt c p) = c ^^^ BitVec.twoPow 72 (posIndex p) := by
      apply codeword_ext
      intro q hq
      rw [bitAt_setAt _ _ _ _ hp hq, bitAt_xor, bitAt_twoPow p q hp hq]
      by_cases h : q = p <;> simp [h]
    rw [flip, getPos, if_pos hp, if_pos hp, ← hset]
    exact if_pos hp
  · rw [flip, getPos, if_neg hp, if_neg hp]
    rfl

/-! Exclusive OR over a list of positions. -/

@[simp] theorem xorOver_nil (f : Nat → Bool) : xorOver [] f = false := rfl
@[simp] theorem xorOver_cons (p : Nat) (ps : List Nat) (f : Nat → Bool) :
    xorOver (p :: ps) f = (f p ^^ xorOver ps f) := rfl

theorem xorOver_append (ps qs : List Nat) (f : Nat → Bool) :
    xorOver (ps ++ qs) f = (xorOver ps f ^^ xorOver qs f) := by
  induction ps with
  | nil => simp
  | cons p ps ih => simp [ih]

/-- The XOR is linear in the bits. -/
theorem xorOver_xor (ps : List Nat) (f g : Nat → Bool) :
    xorOver ps (fun p => f p ^^ g p) = (xorOver ps f ^^ xorOver ps g) := by
  induction ps with
  | nil => rfl
  | cons p ps ih =>
    simp only [xorOver_cons, ih]
    cases f p <;> cases g p <;> cases xorOver ps f <;> cases xorOver ps g <;> rfl

theorem xorOver_congr {ps : List Nat} {f g : Nat → Bool} (h : ∀ p ∈ ps, f p = g p) : xorOver ps f = xorOver ps g := by
  induction ps with
  | nil => rfl
  | cons p ps ih => simp [h p (by simp), ih (fun q hq => h q (by simp [hq]))]

@[simp] theorem xorOver_false (ps : List Nat) : xorOver ps (fun _ => false) = false := by
  induction ps with
  | nil => rfl
  | cons p ps ih => simp [ih]

/-- One bit set in a list without repeats: the XOR says whether the list holds it. -/
theorem xorOver_single (ps : List Nat) (q : Nat) (h : ps.Nodup) :
    xorOver ps (fun p => decide (p = q)) = decide (q ∈ ps) := by
  induction ps with
  | nil => simp
  | cons p ps ih =>
    obtain ⟨hp, hps⟩ := List.nodup_cons.mp h
    by_cases hq : p = q
    · subst hq; simp [ih hps, hp]
    · have : q ≠ p := fun e => hq e.symm
      simp [ih hps, hq, this]

/-- Leaving out positions is the same as masking their bits. -/
theorem xorOver_filter (ps : List Nat) (m : Nat → Bool) (f : Nat → Bool) :
    xorOver (ps.filter m) f = xorOver ps (fun p => m p && f p) := by
  induction ps with
  | nil => rfl
  | cons p ps ih => cases h : m p <;> simp [h, ih]

/-- Writing a position that the list does not hold leaves its XOR. -/
theorem xorOver_setAt_of_notMem (c : Codeword) (p : Nat) (b : Bool) (ps : List Nat) (hp : IsPosition p)
    (hps : ∀ q ∈ ps, IsPosition q) (hmem : p ∉ ps) : xorOver ps (bitAt (setAt c p b)) = xorOver ps (bitAt c) :=
  xorOver_congr fun q hq => by
    have hqp : q ≠ p := fun e => hmem (e ▸ hq)
    rw [bitAt_setAt c p q b hp (hps q hq), if_neg hqp]

/-- Writing a position that the list holds once takes the old bit out of its XOR and puts the new one in. -/
theorem xorOver_setAt_of_mem (c : Codeword) (p : Nat) (b : Bool) (ps : List Nat) (hp : IsPosition p)
    (hps : ∀ q ∈ ps, IsPosition q) (hnd : ps.Nodup) (hmem : p ∈ ps) :
    xorOver ps (bitAt (setAt c p b)) = (xorOver ps (bitAt c) ^^ bitAt c p ^^ b) := by
  have h : xorOver ps (bitAt (setAt c p b)) =
      xorOver ps (fun q => bitAt c q ^^ (decide (q = p) && (bitAt c p ^^ b))) :=
    xorOver_congr fun q hq => by
      rw [bitAt_setAt c p q b hp (hps q hq)]
      by_cases e : q = p
      · subst e; cases bitAt c q <;> cases b <;> simp
      · simp [e]
  have hone := xorOver_single ps p hnd
  rw [h, xorOver_xor]
  cases hb : (bitAt c p ^^ b) <;> cases h1 : bitAt c p <;> cases b <;>
    simp_all

end Sys2Proof.Machine
end

