-- ==== Sys2Proof/Laws/Words.lean ====
section
/-! SUPPORT. Bit sequences, numbers and port words. -/

namespace Sys2Proof

@[simp] theorem natOfBits_nil : natOfBits [] = 0 := rfl

@[simp] theorem bitsOfNat_length (n w : Nat) : (bitsOfNat n w).length = n := by simp [bitsOfNat]

theorem bitsOfNat_getD (n w k : Nat) (hk : k < n) : (bitsOfNat n w).getD k false = w.testBit k := by
  simp [bitsOfNat, List.getD, hk]

theorem natOfBits_lt (l : List Bool) : natOfBits l < 2 ^ l.length := by
  induction l with
  | nil => simp
  | cons b bs ih =>
    have hb : b.toNat ≤ 1 := by cases b <;> simp
    simp only [natOfBits, List.length_cons, Nat.pow_succ]
    omega

/-- Element k of a sequence is bit k of its number. -/
theorem testBit_natOfBits (l : List Bool) (k : Nat) : (natOfBits l).testBit k = l.getD k false := by
  induction l generalizing k with
  | nil => simp
  | cons b bs ih =>
    cases k with
    | zero => cases b <;> simp [natOfBits, Nat.testBit_zero]
    | succ k =>
      have hdiv : (b.toNat + 2 * natOfBits bs) / 2 = natOfBits bs := by
        have : b.toNat ≤ 1 := by cases b <;> simp
        omega
      simp [natOfBits, Nat.testBit_succ, hdiv, ih]

theorem natOfBits_bitsOfNat (n w : Nat) (hw : w < 2 ^ n) : natOfBits (bitsOfNat n w) = w := by
  apply Nat.eq_of_testBit_eq
  intro k
  rw [testBit_natOfBits]
  by_cases hk : k < n
  · exact bitsOfNat_getD n w k hk
  · rw [Nat.testBit_lt_two_pow (Nat.lt_of_lt_of_le hw (Nat.pow_le_pow_right (by decide) (by omega)))]
    simp [bitsOfNat, List.getD, hk]

theorem bitsOfNat_natOfBits (l : List Bool) : bitsOfNat l.length (natOfBits l) = l := by
  apply List.ext_getElem (by simp)
  intro k h1 h2
  simp [bitsOfNat, testBit_natOfBits, List.getD, h2]

@[simp] theorem Instr.wellFormed_encode (d : List Bool) : (Instr.encode d).WellFormed ↔ d.length = 64 := by
  simp [Instr.WellFormed, Instr.wellFormed, Config.nData]

@[simp] theorem Instr.wellFormed_decode (c : List Bool) : (Instr.decode c).WellFormed ↔ c.length = 72 := by
  simp [Instr.WellFormed, Instr.wellFormed, Config.nCode]

@[simp] theorem Instr.operand_encode (d : List Bool) : (Instr.encode d).operand = d := rfl
@[simp] theorem Instr.operand_decode (c : List Bool) : (Instr.decode c).operand = c := rfl
@[simp] theorem Instr.operation_encode (d : List Bool) : (Instr.encode d).operation = .encode := rfl
@[simp] theorem Instr.operation_decode (c : List Bool) : (Instr.decode c).operation = .decode := rfl

@[simp] theorem encode_encode (d : List Bool) : encode (.encode d) = ⟨.encoder, d⟩ := rfl
@[simp] theorem encode_decode (c : List Bool) : encode (.decode c) = ⟨.decoder, c⟩ := rfl

namespace Machine

@[simp] theorem seqOfWord_length {n : Nat} (v : BitVec n) : (seqOfWord v).length = n := by simp [seqOfWord]

@[simp] theorem payloadOfSeq_seqOfWord (d : Payload) : payloadOfSeq (seqOfWord d) = d := by
  apply BitVec.eq_of_toNat_eq
  simp [payloadOfSeq, seqOfWord, natOfBits_bitsOfNat _ _ d.isLt]

@[simp] theorem codewordOfSeq_seqOfWord (c : Codeword) : codewordOfSeq (seqOfWord c) = c := by
  apply BitVec.eq_of_toNat_eq
  simp [codewordOfSeq, seqOfWord, natOfBits_bitsOfNat _ _ c.isLt]

theorem seqOfWord_payloadOfSeq (l : List Bool) (hl : l.length = 64) : seqOfWord (payloadOfSeq l) = l := by
  have h := natOfBits_lt l
  have h2 := bitsOfNat_natOfBits l
  rw [hl] at h h2
  rw [seqOfWord, payloadOfSeq, BitVec.toNat_ofNat, Nat.mod_eq_of_lt h, h2]

theorem seqOfWord_codewordOfSeq (l : List Bool) (hl : l.length = 72) : seqOfWord (codewordOfSeq l) = l := by
  have h := natOfBits_lt l
  have h2 := bitsOfNat_natOfBits l
  rw [hl] at h h2
  rw [seqOfWord, codewordOfSeq, BitVec.toNat_ofNat, Nat.mod_eq_of_lt h, h2]

end Machine
end Sys2Proof
end

