-- ==== Sys2Proof/Laws/Codec.lean ====
section
/-! SUPPORT. What ENCODE, DECODE, a drive and a step can do, said once; the payload placement; linearity of the checks. -/

namespace Sys2Proof.Machine

/-- Everything ENCODE can do. -/
theorem exec_encode (d : List Bool) (s : State) :
    exec (.encode d) s =
      if d.length = 64 then .next (s.writeEncoder (payloadOfSeq d) (encodeWord (payloadOfSeq d)))
      else .fault (.invalidLength .encode d.length) := by
  by_cases h : d.length = 64 <;> simp [exec, execEncode, encodeSeq, Config.nData, raiseInvalidLength, invalidLength, h]

/-- Everything DECODE can do. -/
theorem exec_decode (c : List Bool) (s : State) :
    exec (.decode c) s =
      if c.length = 72 then .next (s.writeDecoder (codewordOfSeq c) (bus (decodeWord (codewordOfSeq c))))
      else .fault (.invalidLength .decode c.length) := by
  by_cases h : c.length = 72 <;> simp [exec, execDecode, decodeSeq, Config.nCode, raiseInvalidLength, invalidLength, h]

/-- ENCODE of a payload word, in every state. -/
theorem encodesTo_encodeWord (d : Payload) : EncodesTo d (encodeWord d) := fun s => by
  simp [exec_encode, State.writeEncoder]

/-- DECODE of a codeword word, in every state. -/
theorem decodesTo_decodeWord (c : Codeword) : DecodesTo c (decodeWord c) := fun s => by
  simp [exec_decode, State.writeDecoder]

/-- The drives that are instructions, and which. -/
theorem decode_eq_ok (v : Drive) (i : Instr) :
    decode v = .ok i ↔ encode i = v ∧ i.WellFormed := by
  obtain ⟨b, l⟩ := v
  cases b <;> cases i <;> rename_i x <;>
    simp only [decode, encode, Block.operation, Operation.block, Instr.operation, Instr.operand, Config.inputLength,
      Instr.WellFormed, Instr.wellFormed, beq_iff_eq, Drive.mk.injEq, true_and, reduceCtorEq, false_and, iff_false]
  · by_cases h : l.length = Config.nData
    · simp only [h, if_true, Except.ok.injEq, Instr.encode.injEq]
      exact ⟨fun e => ⟨e.symm, e ▸ h⟩, fun e => e.1.symm⟩
    · simp only [h, if_false, reduceCtorEq, false_iff]
      exact fun e => h (e.1 ▸ e.2)
  · by_cases h : l.length = Config.nData <;> simp [h]
  · by_cases h : l.length = Config.nCode <;> simp [h]
  · by_cases h : l.length = Config.nCode
    · simp only [h, if_true, Except.ok.injEq, Instr.decode.injEq]
      exact ⟨fun e => ⟨e.symm, e ▸ h⟩, fun e => e.1.symm⟩
    · simp only [h, if_false, reduceCtorEq, false_iff]
      exact fun e => h (e.1 ▸ e.2)

/-- The table words that are instructions, and which. -/
theorem decodeTableWord_eq_some (nbits w : Nat) (i : Instr) :
    decodeTableWord nbits w = some i ↔ w < 2 ^ nbits ∧ encode i = tableDrive nbits w ∧ i.WellFormed := by
  rw [← decode_eq_ok, decodeTableWord]
  by_cases hw : w < 2 ^ nbits
  · cases hd : decode (tableDrive nbits w) <;> simp [hw, Except.toOption]
  · simp [hw]

/-- Everything a drive can do: run its instruction, or end in `InvalidLength`. -/
theorem runDrive_spec (v : Drive) (s : State) :
    runDrive v s =
      match decode v with
      | .ok i => exec i s
      | .error (.invalidLength op n) => .fault (.invalidLength op n) := rfl

/-- A step with nothing to present. -/
theorem step_of_nil {s : State} (h : s.inputs = []) : step s = .next s := by simp [step, h]

/-- A step with something to present. -/
theorem step_of_cons {s : State} {v : Drive} {rest : List Drive} (h : s.inputs = v :: rest) :
    step s = runDrive v { s with inputs := rest } := by simp [step, h]

/-- Everything a step can do when it answers a next state. -/
theorem step_cases {s t : State} (h : step s = .next t) :
    (s.inputs = [] ∧ t = s) ∨
    (∃ d rest, s.inputs = ⟨.encoder, d⟩ :: rest ∧ d.length = 64 ∧
      t = { s with encoder := ⟨payloadOfSeq d, encodeWord (payloadOfSeq d)⟩, inputs := rest }) ∨
    (∃ c rest, s.inputs = ⟨.decoder, c⟩ :: rest ∧ c.length = 72 ∧
      t = { s with
        decoder := ⟨codewordOfSeq c, (bus (decodeWord (codewordOfSeq c))).1, (bus (decodeWord (codewordOfSeq c))).2⟩,
        inputs := rest }) := by
  unfold step at h
  split at h
  · rename_i hin; exact .inl ⟨hin, by simpa using h.symm⟩
  · rename_i v rest hin
    obtain ⟨b, l⟩ := v
    cases b
    · by_cases hl : l.length = 64
      · refine .inr (.inl ⟨l, rest, hin, hl, ?_⟩)
        simp [runDrive, decode, Block.operation, Config.inputLength, Config.nData, hl, exec_encode] at h
        exact h.symm
      · simp [runDrive, decode, Block.operation, Config.inputLength, Config.nData, hl, raiseInvalidLength] at h
    · by_cases hl : l.length = 72
      · refine .inr (.inr ⟨l, rest, hin, hl, ?_⟩)
        simp [runDrive, decode, Block.operation, Config.inputLength, Config.nCode, hl, exec_decode] at h
        exact h.symm
      · simp [runDrive, decode, Block.operation, Config.inputLength, Config.nCode, hl, raiseInvalidLength] at h

/-! The payload placement (steps 1 and 2 of ENCODE). -/

theorem placeFold_index (d : Payload) (ps : List Nat) (c : Codeword) (k : Nat) :
    (ps.foldl (placeStep d) (c, k)).2 = k + ps.countP (fun p => !isParityPos p) := by
  induction ps generalizing c k with
  | nil => rfl
  | cons p ps ih => cases h : isParityPos p <;> simp [placeStep, h, ih]; omega

theorem placeFold_bitAt_of_notMem (d : Payload) (ps : List Nat) (c : Codeword) (k q : Nat) (hq : IsPosition q)
    (hps : ∀ p ∈ ps, IsPosition p) (hmem : q ∉ ps) : bitAt (ps.foldl (placeStep d) (c, k)).1 q = bitAt c q := by
  induction ps generalizing c k with
  | nil => rfl
  | cons p ps ih =>
    have hp : q ≠ p := fun e => hmem (by simp [e])
    have hrest := ih (hps := fun x hx => hps x (by simp [hx])) (hmem := fun hx => hmem (by simp [hx]))
    cases h : isParityPos p
    · simp only [List.foldl_cons, placeStep, h]
      exact (hrest _ _).trans (by rw [bitAt_setAt c p q _ (hps p (by simp)) hq, if_neg hp])
    · simpa [placeStep, h] using hrest c k

/-- After the placement a payload position holds the payload bit `idx` names, and a parity position holds 0. -/
theorem bitAt_placePayload (d : Payload) (q : Nat) (hq : IsPosition q) :
    bitAt (placePayload d) q = if isParityPos q then false else d.getLsbD (payloadIdx q) := by
  have hq' := hq
  simp only [IsPosition, Config.nCode] at hq'
  have hsplit : positions = List.range' 1 (q - 1) ++ q :: List.range' (q + 1) (72 - q) := by
    have h := List.range'_append (s := 1) (m := q - 1) (n := 72 - q + 1) (step := 1)
    rw [show 1 + 1 * (q - 1) = q by omega, show q - 1 + (72 - q + 1) = 72 by omega, List.range'_succ] at h
    exact h.symm
  have hpre : ∀ p ∈ List.range' 1 (q - 1), IsPosition p := fun p hp => by
    simp only [List.mem_range'_1, IsPosition, Config.nCode] at *; omega
  have hpost : ∀ p ∈ List.range' (q + 1) (72 - q), IsPosition p := fun p hp => by
    simp only [List.mem_range'_1, IsPosition, Config.nCode] at *; omega
  have hpre' : q ∉ List.range' 1 (q - 1) := by simp [List.mem_range'_1]; omega
  have hpost' : q ∉ List.range' (q + 1) (72 - q) := by simp [List.mem_range'_1]
  have hcount : ∀ q ∈ positions, isParityPos q = false →
      (List.range' 1 (q - 1)).countP (fun p => !isParityPos p) = payloadIdx q := by decide +kernel
  have hidx := placeFold_index d (List.range' 1 (q - 1)) 0#72 0
  have hbit := placeFold_bitAt_of_notMem d (List.range' 1 (q - 1)) 0#72 0 q hq hpre hpre'
  unfold placePayload
  rw [hsplit, List.foldl_append, List.foldl_cons]
  generalize List.foldl (placeStep d) (0#72, 0) (List.range' 1 (q - 1)) = ck at hidx hbit
  obtain ⟨c, k⟩ := ck
  cases h : isParityPos q
  · have hk : k = payloadIdx q := by
      have := hcount q ((mem_positions q).mpr hq) h
      simp only at hidx; omega
    simp only [placeStep, h]
    refine (placeFold_bitAt_of_notMem d _ _ _ q hq hpost hpost').trans ?_
    rw [bitAt_setAt _ _ _ _ hq hq, if_pos rfl, hk]; simp
  · simp only [placeStep, h]
    exact (placeFold_bitAt_of_notMem d _ _ _ q hq hpost hpost').trans (by simpa using hbit)

/-! The classifier's rows. -/

@[simp] theorem classify_zero_false : classify 0#7 false = .noError := rfl
@[simp] theorem classify_zero_true : classify 0#7 true = .singleCorrectableError 72#7 := rfl

theorem classify_true_of_ne {S : Syndrome} (h : S ≠ 0#7) : classify S true = .singleCorrectableError S := by
  simp [classify, h]

theorem classify_false_of_ne {S : Syndrome} (h : S ≠ 0#7) : classify S false = .doubleErrorDetected := by
  simp [classify, h]

/-! The checks are linear in the codeword. -/

theorem checkBit_xor (a b : Codeword) (w : Nat) : checkBit (a ^^^ b) w = (checkBit a w ^^ checkBit b w) := by
  simp only [checkBit, ← xorOver_xor]
  exact xorOver_congr fun p _ => bitAt_xor a b p

theorem overallParity_xor (a b : Codeword) : overallParity (a ^^^ b) = (overallParity a ^^ overallParity b) := by
  simp only [overallParity, ← xorOver_xor]
  exact xorOver_congr fun p _ => bitAt_xor a b p

/-- Masked parity is linear. -/
theorem parity_and_xor {n : Nat} (m a b : BitVec n) :
    parity ((a ^^^ b) &&& m) = (parity (a &&& m) ^^ parity (b &&& m)) := by
  unfold parity
  rw [← xorOver_xor]
  exact xorOver_congr fun p _ => by simp [Bool.and_xor_distrib_right]

/-- The members of a coverage set, in numbers. -/
theorem mem_coverageSet (w p : Nat) : p ∈ coverageSet w ↔ 1 ≤ p ∧ p ≤ 71 ∧ p &&& w ≠ 0 := by
  simp only [coverageSet, covers, List.mem_filter, mem_positions, isPosition_iff, Bool.and_eq_true, decide_eq_true_eq,
    bne_iff_ne]
  exact ⟨fun h => ⟨h.2.1.1, h.2.1.2, h.2.2⟩, fun h => ⟨⟨h.1, Nat.le_trans h.2.1 (by decide)⟩, ⟨h.1, h.2.1⟩, h.2.2⟩⟩

/-- Everything `coverage` can do. -/
theorem coverage_spec (w : Nat) :
    coverage w = if w ∈ Config.weights then .ok (coverageSet w) else .error (.notAWeight w) := rfl

/-- Everything the harness branch can do on a single error. -/
theorem correctIfSingle_single (p : BitVec 7) (c : Codeword) :
    correctIfSingle (.singleCorrectableError p) c =
      if IsPosition p.toNat then .corrected (c ^^^ BitVec.twoPow 72 (posIndex p.toNat)) else .stopped := by
  rw [correctIfSingle, flip_spec]
  by_cases h : IsPosition p.toNat
  · rw [if_pos h, if_pos h]
  · rw [if_neg h, if_neg h]

theorem positions_nodup : positions.Nodup := List.nodup_range' (step := 1)

/-- One wrong position: exactly the checks that read it see it. -/
theorem checkBit_twoPow (p w : Nat) (hp : IsPosition p) :
    checkBit (BitVec.twoPow 72 (posIndex p)) w = decide (p ∈ checkSet w) := by
  have hset : ∀ q ∈ checkSet w, IsPosition q := fun q hq => (mem_positions q).mp (List.mem_of_mem_filter hq)
  rw [checkBit, xorOver_congr (fun q hq => bitAt_twoPow p q hp (hset q hq))]
  exact xorOver_single _ _ (positions_nodup.filter _)

/-- One wrong position makes the overall parity odd. -/
theorem overallParity_twoPow (p : Nat) (hp : IsPosition p) :
    overallParity (BitVec.twoPow 72 (posIndex p)) = true := by
  rw [overallParity, xorOver_congr (fun q hq => bitAt_twoPow p q hp ((mem_positions q).mp hq)),
    xorOver_single _ _ positions_nodup]
  simpa using hp

/-- Two linear functions of a word agree when they agree on the words with one bit set. -/
theorem eq_of_linear {n : Nat} (f g : BitVec n → Bool) (hf : ∀ a b, f (a ^^^ b) = (f a ^^ f b))
    (hg : ∀ a b, g (a ^^^ b) = (g a ^^ g b)) (h : ∀ k < n, f (BitVec.twoPow n k) = g (BitVec.twoPow n k)) :
    f = g := by
  have zero : ∀ f : BitVec n → Bool, (∀ a b, f (a ^^^ b) = (f a ^^ f b)) → f 0 = false := fun f hf => by
    have := hf 0 0; cases h0 : f 0 <;> simp_all
  have below : ∀ m ≤ n, ∀ v : BitVec n, (∀ k, m ≤ k → v.getLsbD k = false) → f v = g v := by
    intro m
    induction m with
    | zero =>
      intro _ v hv
      rw [show v = 0 from BitVec.eq_of_getLsbD_eq fun k _ => by simp [hv k (by omega)], zero f hf, zero g hg]
    | succ m ih =>
      intro hm v hv
      by_cases hb : v.getLsbD m = true
      · have hrest := ih (by omega) (v ^^^ BitVec.twoPow n m) (fun k hk => by
          rw [BitVec.getLsbD_xor]
          by_cases e : k = m
          · subst e; simp [hb]; omega
          · rw [hv k (by omega)]; simp; omega)
        rw [hf, hg, h m (by omega)] at hrest
        simpa using hrest
      · exact ih (by omega) v fun k hk => by
          by_cases e : k = m
          · subst e; simpa using hb
          · exact hv k (by omega)
  exact funext fun v => below n (Nat.le_refl n) v fun k hk => BitVec.getLsbD_of_ge v k hk

end Sys2Proof.Machine
end

