-- ==== Sys2Proof/Laws/PerInstr.lean ====
section
/-! SUPPORT. Statements about every instruction as syntax, one lemma for each constructor. -/

namespace Sys2Proof.Laws.DriveRoundTrip

/-- A well-formed instruction is what its drive decodes to (30_encoding.md R37). -/
def Statement (i : Instr) : Prop := i.WellFormed → Sys2Proof.decode (Sys2Proof.encode i) = .ok i

theorem encode (d : List Bool) : Statement (.encode d) := fun h => (Sys2Proof.Machine.decode_eq_ok _ _).mpr ⟨rfl, h⟩

theorem decode (c : List Bool) : Statement (.decode c) := fun h => (Sys2Proof.Machine.decode_eq_ok _ _).mpr ⟨rfl, h⟩

end Sys2Proof.Laws.DriveRoundTrip
end

