-- ==== Sys2Proof/Tests/Slice0.lean ====
section
/-! SUPPORT. Tests. Expected values come from spec/95_test_vectors.md and the layout of spec/30_encoding.md R38, never from
the model. The last part gives, for each statement with hypotheses, values that meet them. -/

namespace Sys2Proof.Machine

/-- A nibble of a hex digit, bit 0 first. -/
def nib (a b c d : Bool) : List Bool := [a, b, c, d]

/-- The drive of one codeword, waiting in an otherwise fresh machine. -/
def withCodeword (c : Codeword) : State := State.reset.present ⟨.decoder, seqOfWord c⟩

/-- The drive of one payload, waiting in an otherwise fresh machine. -/
def withPayload (d : Payload) : State := State.reset.present ⟨.encoder, seqOfWord d⟩

/-- The next state, where there is one. -/
def nextOf (o : Host.Outcome State Fault Refusal) : Option State :=
  match o with
  | .next t => some t
  | .fault _ => none
  | .refused _ => none

/-- The fault, where there is one. -/
def faultOf (o : Host.Outcome State Fault Refusal) : Option Fault :=
  match o with
  | .next _ => none
  | .fault f => some f
  | .refused _ => none

/-! WellFormed: an ill-formed term for each check (30_encoding.md R45: lengths 63, 65, 71, 73; a codeword is no payload). -/

theorem test_wellFormed_refuses_encode_63 : (Instr.encode (List.replicate 63 false)).wellFormed = false := by decide
theorem test_wellFormed_refuses_encode_72 : (Instr.encode (List.replicate 72 false)).wellFormed = false := by decide
theorem test_wellFormed_refuses_decode_71 : (Instr.decode (List.replicate 71 false)).wellFormed = false := by decide
theorem test_wellFormed_refuses_decode_64 : (Instr.decode (List.replicate 64 false)).wellFormed = false := by decide

/-! Decoding: words written out bit by bit. -/

/-- 0x0123456789ABCDEF, digit by digit from the least significant: F E D C B A 9 8 7 6 5 4 3 2 1 0. -/
theorem test_decode_encode_word :
    decodeTableWord 64 0x0123456789ABCDEF = some (.encode (
      nib true true true true ++ nib false true true true ++ nib true false true true ++ nib false false true true ++
      nib true true false true ++ nib false true false true ++ nib true false false true ++
      nib false false false true ++ nib true true true false ++ nib false true true false ++
      nib true false true false ++ nib false false true false ++ nib true true false false ++
      nib false true false false ++ nib true false false false ++ nib false false false false)) := by decide +kernel

/-- The codeword with positions 42 and 10 set (95_test_vectors.md S7): bits 41 and 9. -/
theorem test_decode_decode_word :
    decodeTableWord 72 0x000000020000000200 = some (.decode (
      List.replicate 9 false ++ [true] ++ List.replicate 31 false ++ [true] ++ List.replicate 30 false)) := by
  decide +kernel

/-- The placed fields of DECODE's row: q at bit 71, p at bits 63, 31, 15, 7, 3, 1, 0, and d elsewhere. -/
theorem test_decode_fields :
    (List.range 72).filter (fun b => isParityPos (b + 1)) = [0, 1, 3, 7, 15, 31, 63, 71] := by decide +kernel

/-! One step of each instruction (95_test_vectors.md, 2.2 and 2.4). -/

theorem test_encode_step :
    (nextOf (step (withPayload 0xDEADBEEFCAFEBABE))).map (fun t => (t.encoder.data, t.encoder.cw)) =
      some (0xDEADBEEFCAFEBABE, 0x6f2b6fbbf2dfd7abf2) := by decide +kernel
theorem test_encode_63_faults :
    faultOf (exec (.encode (List.replicate 63 true)) State.reset) = some (.invalidLength .encode 63) := by decide
theorem test_decode_step_above_72 :
    (nextOf (step (withCodeword 0x80c8d159e23579de78))).map (fun t => (t.decoder.outcome, t.decoder.position)) =
      some (0b01, 75) := by decide +kernel
theorem test_decode_step_double :
    (nextOf (step (withCodeword 0x6f2b6fb9f2dfd7a9f2))).map (fun t => (t.decoder.outcome, t.decoder.position)) =
      some (0b10, 0) := by decide +kernel

/-! The functions beside them (95_test_vectors.md, 2.1 and 2.5). -/

theorem test_extract : extract 0x8048d159e23579defc = 0x0123456789ABCDEF := by decide +kernel
theorem test_encodeTrees : encodeTrees 0x0123456789ABCDEF = 0x8048d159e23579defc := by decide +kernel
theorem test_decodeTrees : decodeTrees 0x80c8d159e23579de78 = (0b01, 75) := by decide +kernel
theorem test_coveringWeights : coveringWeights 42 = [2, 8, 32] ∧ coveringWeights 72 = [] := by decide
theorem test_coverage_refuses_3 : coverage 3 = .error (.notAWeight 3) := by rfl
theorem test_payloadPos : [0, 1, 3, 4, 10, 11, 25, 26, 56, 57, 63].map payloadPos =
    [3, 5, 7, 9, 15, 17, 31, 33, 63, 65, 71] := by decide
theorem test_payloadIdx : [42, 71, 3].map payloadIdx = [35, 63, 0] := by decide
theorem test_unbus_faults : unbus 0b11 9 = .error (.neverDriven 0b11 9) ∧ unbus 0b00 5 = .error (.neverDriven 0b00 5) ∧
    unbus 0b01 0 = .error (.neverDriven 0b01 0) := ⟨rfl, rfl, rfl⟩
/-- Program P4 of 95_test_vectors.md, statement 4: a reported position above 72 is not flipped. -/
theorem test_harness_stops_above_72 :
    correctIfSingle (.singleCorrectableError 75) 0x80c8d159e23579de78 = .stopped := by rfl

/-! Witnesses: values that meet the hypotheses of each statement. -/

theorem witness_EveryStepKeepsOutputsEqualToTheBlockFunctions :
    (withPayload 1).PortsFollowInputs ∧ (nextOf (step (withPayload 1))).isSome ∧
    (withCodeword 3).PortsFollowInputs ∧ (nextOf (step (withCodeword 3))).isSome := by decide +kernel

theorem witness_WellDrivenRunsNeverStop :
    ((withPayload 1).present ⟨.decoder, List.replicate 72 true⟩).WellDriven ∧
    ((withPayload 1).present ⟨.decoder, List.replicate 72 true⟩).PortsFollowInputs := by decide +kernel

theorem witness_StepRunsTheDecodedInstruction :
    (withCodeword 3).inputs = ⟨.decoder, seqOfWord (3 : Codeword)⟩ :: [] ∧
    decode ⟨.decoder, seqOfWord (3 : Codeword)⟩ = .ok (.decode (seqOfWord (3 : Codeword))) := ⟨rfl, rfl⟩

theorem witness_StepWithNothingToPresentLeavesTheState : State.reset.inputs = [] := rfl

/-- Lengths one below and one above each port's width. -/
theorem witness_StepOnAWrongLengthIsInvalidLength :
    ∀ v ∈ [(⟨.encoder, List.replicate 63 true⟩ : Drive), ⟨.encoder, List.replicate 65 true⟩,
      ⟨.decoder, List.replicate 71 true⟩, ⟨.decoder, List.replicate 73 true⟩],
      (State.reset.present v).inputs = v :: [] ∧ v.bits.length ≠ Config.inputLength v.block.operation := by decide

theorem witness_StepRunsAPresentedTableWord :
    decodeTableWord 64 0 = some (.encode (List.replicate 64 false)) ∧
    decodeTableWord 72 0 = some (.decode (List.replicate 72 false)) := by decide +kernel

theorem witness_InvalidLengthIsRaisedExactlyOnWrongLengths :
    (List.replicate 63 true).length ≠ 64 ∧ (List.replicate 65 true).length ≠ 64 ∧
    (List.replicate 71 true).length ≠ 72 ∧ (List.replicate 73 true).length ≠ 72 := by decide

theorem witness_NoInputButAWrongLengthFaults :
    (Instr.encode (List.replicate 64 true)).WellFormed ∧ ¬ (Instr.encode (List.replicate 65 true)).WellFormed ∧
    (Instr.decode (List.replicate 72 true)).WellFormed ∧ ¬ (Instr.decode (List.replicate 73 true)).WellFormed := by
  decide

theorem witness_TableWordOfAnInstructionDecodesToIt :
    (Instr.encode (List.replicate 64 true)).WellFormed ∧ (Instr.decode (List.replicate 72 true)).WellFormed := by decide

/-- The greatest word of each row, and the first that does not fit. -/
theorem witness_TableWordsAreTheTwoRows :
    (decodeTableWord 64 (2 ^ 64 - 1)).isSome ∧ decodeTableWord 64 (2 ^ 64) = none ∧
    (decodeTableWord 72 (2 ^ 72 - 1)).isSome ∧ decodeTableWord 72 (2 ^ 72) = none := by decide +kernel

theorem witness_SequenceElementsAreBusBits :
    (List.replicate 64 true).length = 64 ∧ (List.replicate 72 true).length = 72 ∧ IsPosition 1 ∧ IsPosition 72 := by
  decide

theorem witness_OnlyPositions1To72AreReached :
    IsPosition 1 ∧ IsPosition 72 ∧ ¬ IsPosition 0 ∧ ¬ IsPosition 73 := by decide

theorem witness_SetAndFlipChangeOnePosition :
    (1 : Nat) ≠ 72 ∧ setPos 0 72 true = .ok 0x800000000000000000 ∧ flip 0 72 = .ok 0x800000000000000000 :=
  ⟨by decide, rfl, rfl⟩

theorem witness_PlacementIsABijectionAndExtractUndoesEncode :
    isParityPos 3 = false ∧ IsPosition 3 ∧ isParityPos 71 = false ∧ IsPosition 71 ∧ payloadPos 0 = 3 ∧
    payloadPos 63 = 71 := by decide

theorem witness_CoverageIsDefinedForTheSevenWeights :
    64 ∈ [1, 2, 4, 8, 16, 32, 64] ∧ 0 ∉ [1, 2, 4, 8, 16, 32, 64] ∧ 72 ∉ [1, 2, 4, 8, 16, 32, 64] := by decide

theorem witness_OrderOfTheParityBitsDoesNotMatter : [64, 32, 16, 8, 4, 2, 1].Perm Config.weights := by decide

theorem witness_EncodeDrivesTheXorTrees :
    (List.replicate 64 true).length = 64 ∧
    (nextOf (exec (.encode (List.replicate 64 true)) State.reset)).map (fun t => t.encoder.cw) =
      some 0xffffffffffffffffff := by decide +kernel

theorem witness_EncodeOutputPassesEveryCheck :
    (nextOf (exec (.encode (seqOfWord (0x5555555555555555 : Payload))) (withCodeword 3))).map (fun t => t.encoder.cw) =
      some 0x2ad55555552aaad52d := by decide +kernel

theorem witness_CodewordsOfDistinctPayloadsDifferInFourPositions :
    (0 : Payload) ≠ 1 ∧ distance (encodeWord 0) (encodeWord 1) = 4 := by decide +kernel

theorem witness_DecodeDrivesThePortLogic : (List.replicate 72 false).length = 72 := by decide

/-- One codeword for each row of the classifier: 0, position 42, positions 42 and 10, position 72. -/
theorem witness_ClassifierHasFourRows :
    (syndrome 0 = 0 ∧ overallParity 0 = false) ∧
    (syndrome 0x000000020000000000 = 42 ∧ overallParity 0x000000020000000000 = true) ∧
    (syndrome 0x000000020000000200 = 32 ∧ overallParity 0x000000020000000200 = false) ∧
    (syndrome 0x800000000000000000 = 0 ∧ overallParity 0x800000000000000000 = true) := by decide +kernel

theorem witness_ReservedOutputsAreNeverDriven :
    [0, 0x000000000000000001, 0x000000000000000003, 0x800000000000000000].map
      (fun c => (nextOf (exec (.decode (seqOfWord (c : Codeword))) State.reset)).map
        fun t => (t.decoder.outcome, t.decoder.position)) =
      [some (0b00, 0), some (0b01, 1), some (0b10, 0), some (0b01, 72)] := by decide +kernel

theorem witness_UnbusIsTheInverseOfBus :
    DecodeOutcome.singleCorrectableError 127 ≠ .singleCorrectableError 0 ∧
    unbus 0b01 127 = .ok (.singleCorrectableError 127) ∧
    (∀ o, o ≠ .singleCorrectableError 0 → bus o ≠ (0b01, 0)) ∧ (∀ o, bus o ≠ (0b11, 127)) :=
  ⟨by decide, rfl, fun o h => by cases o <;> simp_all [bus], fun o => by cases o <;> simp [bus]⟩

theorem witness_OneFlipIsReportedAtItsExactPosition : (1 ≤ 1 ∧ 1 ≤ 72) ∧ (1 ≤ 72 ∧ 72 ≤ 72) := by decide

theorem witness_TwoFlipsAreAlwaysDetected : (1 ≤ 71 ∧ 71 ≤ 72) ∧ (1 ≤ 72 ∧ 72 ≤ 72) ∧ 71 ≠ 72 := by decide

/-- An odd and an even list of flips, with and without an XOR of 0. -/
theorem witness_AnyFlipsAreClassifiedByTheXorOfTheirPositions :
    ∀ ps ∈ [[3, 8, 64], [1, 2, 3], [1, 2, 4, 7], [72, 5]], ps.Nodup ∧ ∀ p ∈ ps, 1 ≤ p ∧ p ≤ 72 := by decide

theorem witness_SyndromesFrom72UpAreReportedRaw :
    EncodesTo 0 0 ∧ [3, 8, 64].Nodup ∧ flipAll [3, 8, 64] 0 = .ok 0x008000000000000084 ∧
    overallParity 0x008000000000000084 = true ∧ syndrome 0x008000000000000084 = 75 ∧
    overallParity 0x808000000000000080 = true ∧ syndrome 0x808000000000000080 = 72 ∧
    72 ≤ (127 : Syndrome).toNat ∧ 72 < (73 : Syndrome).toNat := by
  have h : encodeWord 0 = 0 := by decide +kernel
  exact ⟨h ▸ encodesTo_encodeWord 0, by decide, rfl, by decide +kernel⟩

theorem witness_OneFlipIsCorrected : (1 ≤ 1 ∧ 1 ≤ 72) ∧ (1 ≤ 72 ∧ 72 ≤ 72) := by decide

/-- Program P5 of 95_test_vectors.md: flips 1, 2 and 3 of the zero codeword are "corrected" at position 72. -/
theorem witness_MiscorrectionLeavesTheOtherFlips :
    EncodesTo 0 0 ∧ popcount (0x000000000000000007 : Codeword) = 3 ∧
    correctIfSingle (decodeWord (0 ^^^ 0x000000000000000007)) (0 ^^^ 0x000000000000000007) =
      .corrected 0x800000000000000007 := by
  have h : encodeWord 0 = 0 := by decide +kernel
  exact ⟨h ▸ encodesTo_encodeWord 0, by decide +kernel, by decide +kernel⟩

theorem witness_CallerFlipsOnlyAReportedPosition :
    (1 ≤ (1 : BitVec 7).toNat ∧ (72 : BitVec 7).toNat ≤ 72) ∧ ¬ 1 ≤ (0 : BitVec 7).toNat ∧
    ¬ (73 : BitVec 7).toNat ≤ 72 := by decide

theorem witness_OnlyTheDrivenBlockChanges :
    (nextOf (exec (.encode (List.replicate 64 true)) (withCodeword 3))).isSome ∧
    (nextOf (exec (.decode (List.replicate 72 true)) (withPayload 3))).isSome := by decide +kernel

theorem witness_CallsDoNotAffectEachOther :
    (List.replicate 64 true).length = 64 ∧ (List.replicate 72 true).length = 72 ∧
    (nextOf (exec (.encode (List.replicate 64 true)) State.reset)).isSome ∧
    (nextOf (exec (.encode (List.replicate 64 true)) (withCodeword 3))).isSome ∧
    (nextOf (exec (.decode (List.replicate 72 true)) State.reset)).isSome ∧
    (nextOf (exec (.decode (List.replicate 72 true)) (withPayload 3))).isSome := by decide +kernel

theorem witness_TheSameCallAgainChangesNothing :
    (nextOf (exec (.encode (List.replicate 64 true)) State.reset)).isSome ∧
    (nextOf (exec (.decode (List.replicate 72 true)) State.reset)).isSome := by decide +kernel

/-- Whole words complete in states other than reset; lengths beside the widths are no whole word. -/
theorem witness_EveryAccessIsAWholeWord :
    (nextOf (exec (.encode (List.replicate 64 true)) (withCodeword 3))).isSome ∧
    (nextOf (exec (.decode (List.replicate 72 true)) (withPayload 3))).isSome ∧
    (List.replicate 65 true).length ≠ 64 ∧ (List.replicate 71 true).length ≠ 72 := by decide +kernel

end Sys2Proof.Machine
end

section
/-! Proofs of the state's statements: which positions are reached, and what each access does there (10_state.md R21). -/

namespace Sys2Proof.Machine

/-- `SetPos` on a position that exists makes the bit read there the one written. -/
theorem setPos_reads_back (c : Codeword) (p : Nat) (b : Bool) (hp : IsPosition p) :
    ∃ c', setPos c p b = .ok c' ∧ bitAt c' p = b := by
  refine ⟨setAt c p b, ?_, ?_⟩
  · rw [setPos_spec, if_pos hp]
  · rw [bitAt_setAt c p p b hp hp, if_pos rfl]

/-- `Flip` on a position that exists inverts the bit read there. -/
theorem flip_inverts (c : Codeword) (p : Nat) (hp : IsPosition p) :
    ∃ c', flip c p = .ok c' ∧ bitAt c' p = !bitAt c p := by
  refine ⟨c ^^^ BitVec.twoPow 72 (posIndex p), ?_, ?_⟩
  · rw [flip_spec, if_pos hp]
  · rw [bitAt_xor, bitAt_twoPow p p hp hp, decide_eq_true rfl, Bool.xor_true]

/-- All three accesses refuse a position that does not exist, and name it. -/
theorem access_refused_of_not_isPosition (c : Codeword) (p : Nat) (b : Bool) (hp : ¬ IsPosition p) :
    getPos c p = .error (.positionOutOfRange p) ∧ setPos c p b = .error (.positionOutOfRange p) ∧
    flip c p = .error (.positionOutOfRange p) :=
  ⟨(getPos_spec c p).trans (if_neg hp), (setPos_spec c p b).trans (if_neg hp), (flip_spec c p).trans (if_neg hp)⟩

/-- Settles O14: position p is bus bit p - 1 (`bitAt` unfolded), so the three accesses are the lemmas above. -/
theorem onlyPositions1To72AreReached : Obligations.OnlyPositions1To72AreReached := by
  intro c p b
  constructor
  · intro hp
    have hget : getPos c p = .ok (bitAt c p) := (getPos_spec c p).trans (if_pos hp)
    exact ⟨hget, setPos_reads_back c p b hp, flip_inverts c p hp⟩
  · exact access_refused_of_not_isPosition c p b

end Sys2Proof.Machine
end

section
/-! Proofs of the encoding's statements: the payload placement, and reading the payload back from a codeword
(30_encoding.md R39). -/

namespace Sys2Proof.Machine

/-- The payload positions in numbers. -/
theorem isParityPos_eq_false_iff (p : Nat) :
    isParityPos p = false ↔
      p ≠ 1 ∧ p ≠ 2 ∧ p ≠ 4 ∧ p ≠ 8 ∧ p ≠ 16 ∧ p ≠ 32 ∧ p ≠ 64 ∧ p ≠ 72 := by
  simp [isParityPos, Config.weights, Config.posOverall, and_assoc]

theorem isPosition_of_mem_weights {w : Nat} (hw : w ∈ Config.weights) : IsPosition w := by
  revert w; decide

theorem notMem_weights_of_payload {p : Nat} (hp : isParityPos p = false) : p ∉ Config.weights := fun hw => by
  simp [isParityPos, hw] at hp

theorem ne_posOverall_of_payload {p : Nat} (hp : isParityPos p = false) : p ≠ Config.posOverall := fun h => by
  simp [isParityPos, h] at hp

/-! The placement runs between two powers of two: on the positions from `2 ^ j + 1` to `2 ^ (j + 1) - 1` it is the shift
by `j + 2`. -/

/-- `idx` on the run after `2 ^ j`. -/
theorem payloadIdx_of_run {j p : Nat} (hlo : 2 ^ j ≤ p) (hhi : p < 2 ^ (j + 1)) : payloadIdx p = p - 2 - j := by
  have hne : p ≠ 0 := fun h => absurd hlo (by simp [h])
  rw [payloadIdx, (Nat.log2_eq_iff hne).mpr ⟨hlo, hhi⟩]

/-- `pos(k)` lies strictly inside one of the six runs, and is shifted as that run asks. -/
theorem payloadPos_mem_run {k : Nat} (hk : k < 64) :
    ∃ j, 2 ^ j < payloadPos k ∧ payloadPos k < 2 ^ (j + 1) ∧ payloadPos k = k + j + 2 := by
  unfold payloadPos
  split_ifs
  · exact ⟨1, by omega⟩
  · exact ⟨2, by omega⟩
  · exact ⟨3, by omega⟩
  · exact ⟨4, by omega⟩
  · exact ⟨5, by omega⟩
  · exact ⟨6, by omega⟩

/-- `idx` undoes `pos`. -/
theorem payloadIdx_payloadPos {k : Nat} (hk : k < 64) : payloadIdx (payloadPos k) = k := by
  obtain ⟨j, hlo, hhi, hpos⟩ := payloadPos_mem_run hk
  rw [payloadIdx_of_run hlo.le hhi]
  omega

theorem payloadPos_strictMono {j k : Nat} (hjk : j < k) : payloadPos j < payloadPos k := by
  unfold payloadPos
  split_ifs <;> omega

theorem isPosition_payloadPos {k : Nat} (hk : k < 64) : IsPosition (payloadPos k) := by
  rw [isPosition_iff, payloadPos]
  split_ifs <;> omega

theorem isParityPos_payloadPos {k : Nat} (hk : k < 64) : isParityPos (payloadPos k) = false := by
  rw [isParityPos_eq_false_iff, payloadPos]
  split_ifs <;> omega

/-- A payload position lies strictly inside one of the six runs. -/
theorem payload_mem_run {p : Nat} (hp : IsPosition p) (hpay : isParityPos p = false) :
    ∃ j ∈ [1, 2, 3, 4, 5, 6], 2 ^ j < p ∧ p < 2 ^ (j + 1) := by
  rw [isPosition_iff] at hp
  rw [isParityPos_eq_false_iff] at hpay
  simp only [List.mem_cons, List.not_mem_nil, or_false, exists_eq_or_imp, exists_eq_left]
  omega

/-- `pos` undoes `idx` on the payload positions, so it is onto them. -/
theorem payloadPos_payloadIdx {p : Nat} (hp : IsPosition p) (hpay : isParityPos p = false) :
    payloadIdx p < 64 ∧ payloadPos (payloadIdx p) = p := by
  obtain ⟨j, hj, hlo, hhi⟩ := payload_mem_run hp hpay
  rw [isPosition_iff] at hp
  rw [isParityPos_eq_false_iff] at hpay
  rw [payloadIdx_of_run hlo.le hhi, payloadPos]
  fin_cases hj <;> split_ifs <;> omega

/-! Steps 3 and 4 of ENCODE (41_encoder.md R55) write parity positions only. -/

theorem bitAt_setHamming_of_ne (c : Codeword) {w q : Nat} (hw : IsPosition w) (hq : IsPosition q) (hne : q ≠ w) :
    bitAt (setHamming c w) q = bitAt c q := by
  rw [setHamming, bitAt_setAt c w q _ hw hq, if_neg hne]

theorem bitAt_setOverall_of_ne (c : Codeword) {q : Nat} (hq : IsPosition q) (hne : q ≠ Config.posOverall) :
    bitAt (setOverall c) q = bitAt c q := by
  rw [setOverall, bitAt_setAt c Config.posOverall q _ (by decide) hq, if_neg hne]

/-- Step 3 over any list of weights leaves the positions outside the list. -/
theorem bitAt_foldl_setHamming_of_notMem (ws : List Nat) (c : Codeword) {q : Nat} (hq : IsPosition q)
    (hws : ∀ w ∈ ws, IsPosition w) (hmem : q ∉ ws) : bitAt (ws.foldl setHamming c) q = bitAt c q := by
  induction ws generalizing c with
  | nil => rfl
  | cons w ws ih =>
    obtain ⟨hne, hrest⟩ := List.ne_and_not_mem_of_not_mem_cons hmem
    obtain ⟨hw, hws'⟩ := List.forall_mem_cons.mp hws
    rw [List.foldl_cons, ih _ hws' hrest, bitAt_setHamming_of_ne c hw hq hne]

/-- ENCODE leaves at each payload position the payload bit `idx` names. -/
theorem bitAt_encodeWord_of_payload (d : Payload) {q : Nat} (hq : IsPosition q) (hpay : isParityPos q = false) :
    bitAt (encodeWord d) q = d.getLsbD (payloadIdx q) := by
  calc bitAt (encodeWord d) q
      = bitAt (Config.weights.foldl setHamming (placePayload d)) q :=
        bitAt_setOverall_of_ne _ hq (ne_posOverall_of_payload hpay)
    _ = bitAt (placePayload d) q :=
        bitAt_foldl_setHamming_of_notMem _ _ hq (fun _ => isPosition_of_mem_weights) (notMem_weights_of_payload hpay)
    _ = d.getLsbD (payloadIdx q) := by simp [bitAt_placePayload d q hq, hpay]

/-! `Extract`. -/

theorem getLsbD_payloadOfSeq (l : List Bool) {k : Nat} (hk : k < 64) :
    (payloadOfSeq l).getLsbD k = l.getD k false := by
  rw [payloadOfSeq, BitVec.getLsbD_ofNat, testBit_natOfBits, decide_eq_true hk, Bool.true_and]

/-- `Extract` reads bit k at `pos(k)`. -/
theorem getLsbD_extract (c : Codeword) {k : Nat} (hk : k < 64) :
    (extract c).getLsbD k = bitAt c (payloadPos k) := by
  rw [extract, getLsbD_payloadOfSeq _ hk]
  simp [Config.nData, hk]

/-- Each payload bit is read where ENCODE has put it, because `idx` undoes `pos`. -/
theorem extract_encodeWord (d : Payload) : extract (encodeWord d) = d := by
  apply BitVec.eq_of_getLsbD_eq
  intro k hk
  rw [getLsbD_extract _ hk, bitAt_encodeWord_of_payload d (isPosition_payloadPos hk) (isParityPos_payloadPos hk),
    payloadIdx_payloadPos hk]

/-- Settles O17: `pos` and `idx` run by run, and each payload bit followed through the four steps of ENCODE. -/
theorem placementIsABijectionAndExtractUndoesEncode :
    Obligations.PlacementIsABijectionAndExtractUndoesEncode := by
  refine ⟨?pos, ?idx, ?ascending, ?extract, ?roundTrip⟩
  case pos => exact fun k hk => ⟨isPosition_payloadPos hk, isParityPos_payloadPos hk, payloadIdx_payloadPos hk⟩
  case idx => exact fun p hp hpay => payloadPos_payloadIdx hp hpay
  case ascending => exact fun j k hjk _ => payloadPos_strictMono hjk
  case extract => exact fun c k hk => getLsbD_extract c hk
  case roundTrip => exact fun d => ⟨encodeWord d, encodesTo_encodeWord d, extract_encodeWord d⟩

end Sys2Proof.Machine
end

section
/-! Proofs of the Coverage Map's statements (40_coverage_map.md R49 to R53). -/

namespace Sys2Proof.Machine

/-- Settles O18: the weights are the domain `coverage` tests for, and `coverageSet` has the members of R49. -/
theorem coverageIsDefinedForTheSevenWeights : Obligations.CoverageIsDefinedForTheSevenWeights := by
  intro w
  constructor
  · exact fun hw => ⟨coverageSet w, (coverage_spec w).trans (if_pos hw), mem_coverageSet w⟩
  · exact fun hw => (coverage_spec w).trans (if_neg hw)

/-! The order of the parity bits (R52). -/

theorem nodup_coverageSet (w : Nat) : (coverageSet w).Nodup := positions_nodup.filter _

theorem isPosition_of_mem_coverageSet {w p : Nat} (hp : p ∈ coverageSet w) : IsPosition p :=
  (mem_positions p).mp (List.mem_of_mem_filter hp)

/-- Two weights have a bit in common only when they are the same. -/
theorem weights_and_ne_zero_iff : ∀ v ∈ Config.weights, ∀ w ∈ Config.weights, v &&& w ≠ 0 ↔ v = w := by
  decide

theorem le_coverLast_of_mem_weights {w : Nat} (hw : w ∈ Config.weights) : w ≤ 71 := by
  revert w; decide

theorem weight_mem_coverageSet_iff {v w : Nat} (hv : v ∈ Config.weights) (hw : w ∈ Config.weights) :
    v ∈ coverageSet w ↔ v = w := by
  rw [mem_coverageSet, weights_and_ne_zero_iff v hv w hw]
  have hpos := (isPosition_of_mem_weights hv).1
  have hle := le_coverLast_of_mem_weights hv
  tauto

theorem posOverall_notMem_coverageSet (w : Nat) : Config.posOverall ∉ coverageSet w := fun hmem => by
  obtain ⟨-, hle, -⟩ := (mem_coverageSet w _).mp hmem
  exact absurd hle (by decide)

theorem isParityPos_iff (p : Nat) : isParityPos p = true ↔ p ∈ Config.weights ∨ p = Config.posOverall := by
  simp [isParityPos]

/-- Every other parity position is another weight, with no bit in common, or 72, past the covered range. -/
theorem filter_isParityPos_coverageSet {w : Nat} (hw : w ∈ Config.weights) :
    (coverageSet w).filter isParityPos = [w] := by
  refine List.perm_singleton.mp ((List.perm_ext_iff_of_nodup ((nodup_coverageSet w).filter _)
    (List.nodup_singleton w)).mpr fun p => ?_)
  rw [List.mem_filter, List.mem_singleton, isParityPos_iff]
  constructor
  · rintro ⟨hmem, hweight | rfl⟩
    · exact (weight_mem_coverageSet_iff hweight hw).mp hmem
    · exact absurd hmem (posOverall_notMem_coverageSet w)
  · rintro rfl
    exact ⟨(weight_mem_coverageSet_iff hw hw).mpr rfl, .inl hw⟩

/-- Writes to two positions commute. -/
theorem setAt_comm (c : Codeword) {p q : Nat} (a b : Bool) (hp : IsPosition p) (hq : IsPosition q) (hne : p ≠ q) :
    setAt (setAt c p a) q b = setAt (setAt c q b) p a := by
  refine codeword_ext fun r hr => ?_
  rw [bitAt_setAt _ q r b hq hr, bitAt_setAt c p r a hp hr, bitAt_setAt _ p r a hp hr, bitAt_setAt c q r b hq hr]
  by_cases hrp : r = p
  · rw [if_pos hrp, if_neg (hrp ▸ hne), if_pos hrp]
  · rw [if_neg hrp, if_neg hrp]

/-- Computing the parity bit of `v` first does not change the parity bit of another weight `w`, whose coverage does not
hold `v`. -/
theorem setHamming_setHamming_of_ne (c : Codeword) {v w : Nat} (hv : v ∈ Config.weights) (hw : w ∈ Config.weights)
    (hne : v ≠ w) :
    setHamming (setHamming c v) w =
      setAt (setAt c v (xorOver (coverageSet v) (bitAt c))) w (xorOver (coverageSet w) (bitAt c)) := by
  have hnot : v ∉ coverageSet w := fun hmem => hne ((weight_mem_coverageSet_iff hv hw).mp hmem)
  rw [setHamming, setHamming, xorOver_setAt_of_notMem c v _ (coverageSet w) (isPosition_of_mem_weights hv)
    (fun _ => isPosition_of_mem_coverageSet) hnot]

/-- Step 3 of ENCODE commutes over the weights. -/
theorem setHamming_comm (c : Codeword) {v w : Nat} (hv : v ∈ Config.weights) (hw : w ∈ Config.weights) :
    setHamming (setHamming c v) w = setHamming (setHamming c w) v := by
  by_cases hne : v = w
  · rw [hne]
  · rw [setHamming_setHamming_of_ne c hv hw hne, setHamming_setHamming_of_ne c hw hv (Ne.symm hne),
      setAt_comm c _ _ (isPosition_of_mem_weights hv) (isPosition_of_mem_weights hw) hne]

/-- Settles O21: no weight's parity bit is read for another weight, so the writes of step 3 commute. -/
theorem orderOfTheParityBitsDoesNotMatter : Obligations.OrderOfTheParityBitsDoesNotMatter := by
  constructor
  · exact fun w hw => filter_isParityPos_coverageSet hw
  · intro ws d hperm
    have hcomm : ∀ v ∈ ws, ∀ w ∈ ws, ∀ c, setHamming (setHamming c v) w = setHamming (setHamming c w) v :=
      fun v hv w hw c => setHamming_comm c (hperm.mem_iff.mp hv) (hperm.mem_iff.mp hw)
    rw [encodeWord, encodeInOrder, encodeInOrder, hperm.foldl_eq' hcomm]

/-! The Coverage Map by the bits of the position (R53). -/

/-- The weight `2 ^ j` covers a position of 1..71 exactly when bit j of the position is set. -/
theorem covers_two_pow {p : Nat} (hp : p ∈ List.range' 1 71) (j : Nat) : covers (2 ^ j) p = p.testBit j := by
  obtain ⟨hlo, hhi⟩ := List.mem_range'_1.mp hp
  have hle : p ≤ 71 := by omega
  cases hbit : p.testBit j <;> simp [covers, Nat.and_two_pow, hlo, hle, hbit]

theorem two_pow_mem_weights {j : Nat} (hj : j < 7) : 2 ^ j ∈ Config.weights := by
  revert j; decide

/-- Below 128 the set bits are among bits 0..6. -/
theorem filter_testBit_range_seven {p : Nat} (hp : p < 2 ^ 7) : (List.range 7).filter p.testBit = p.bitIndices := by
  have hsorted : ((List.range 7).filter p.testBit).SortedLT := (List.sortedLT_range 7).pairwise.filter _ |>.sortedLT
  refine hsorted.eq_of_mem_iff Nat.bitIndices_sorted fun j => ?_
  rw [List.mem_filter, List.mem_range, Nat.mem_bitIndices]
  refine and_iff_right_of_imp fun hbit => ?_
  exact (Nat.pow_lt_pow_iff_right (by decide)).mp ((Nat.ge_two_pow_of_testBit hbit).trans_lt hp)

/-- The covering weights are the powers of two in the binary representation. -/
theorem coveringWeights_eq_map_bitIndices {p : Nat} (hp : p ∈ List.range' 1 71) :
    coveringWeights p = p.bitIndices.map (2 ^ ·) := by
  have hlt : p < 2 ^ 7 := by rw [List.mem_range'_1] at hp; omega
  calc coveringWeights p
      = ((List.range 7).map (2 ^ ·)).filter (covers · p) := rfl
    _ = ((List.range 7).filter p.testBit).map (2 ^ ·) := by
        rw [List.filter_map]
        exact congrArg _ (List.filter_congr fun j _ => covers_two_pow hp j)
    _ = p.bitIndices.map (2 ^ ·) := by rw [filter_testBit_range_seven hlt]

theorem sum_coveringWeights {p : Nat} (hp : p ∈ List.range' 1 71) : (coveringWeights p).sum = p := by
  rw [coveringWeights_eq_map_bitIndices hp, Nat.sum_map_two_pow_bitIndices]

/-- No weights would sum to 0. -/
theorem coveringWeights_ne_nil {p : Nat} (hp : p ∈ List.range' 1 71) : coveringWeights p ≠ [] := fun hnil => by
  have hsum := sum_coveringWeights hp
  rw [hnil, List.sum_nil] at hsum
  rw [List.mem_range'_1] at hp
  omega

theorem mem_coveringWeights_two_pow {p j : Nat} (hp : p ∈ List.range' 1 71) (hj : j < 7) :
    2 ^ j ∈ coveringWeights p ↔ p.testBit j = true := by
  rw [coveringWeights, List.mem_filter, covers_two_pow hp]
  exact and_iff_right (two_pow_mem_weights hj)

theorem eq_posOverall_of_coveringWeights_eq_nil {p : Nat} (hp : p ∈ positions) (hnil : coveringWeights p = []) :
    p = 72 := by
  by_contra hne
  rw [mem_positions, isPosition_iff] at hp
  exact coveringWeights_ne_nil (List.mem_range'_1.mpr (by omega)) hnil

/-- Settles O20: the covering weights are the set bits of p, and their sum gives p back, so it tells positions
apart. -/
theorem coveringWeightsAreTheBinaryDigitsOfThePosition :
    Obligations.CoveringWeightsAreTheBinaryDigitsOfThePosition := by
  refine ⟨?digits, ?sum, ?overall, ?onlyOverall, ?distinct⟩
  case digits => exact fun p hp j hj => mem_coveringWeights_two_pow hp hj
  case sum => exact fun p hp => ⟨sum_coveringWeights hp, coveringWeights_ne_nil hp⟩
  case overall => rfl
  case onlyOverall => exact fun p hp hnil => eq_posOverall_of_coveringWeights_eq_nil hp hnil
  case distinct =>
    intro p hp q hq heq
    rw [← sum_coveringWeights hp, heq, sum_coveringWeights hq]

/-! The map written out (R50). -/

/-- Bit p - 1 of a mask is set exactly for the members p. -/
theorem bitAt_coverageMask : ∀ w ∈ Config.weights, ∀ p ∈ positions,
    bitAt (coverageMask w) p = decide (p ∈ coverageSet w) := by
  decide +kernel

/-- Position 72 is in no coverage set. -/
theorem getLsbD_coverageMask_posOverall {w : Nat} (hw : w ∈ Config.weights) :
    (coverageMask w).getLsbD 71 = false := by
  have hbit : bitAt (coverageMask w) Config.posOverall = decide (Config.posOverall ∈ coverageSet w) :=
    bitAt_coverageMask w hw _ ((mem_positions _).mpr (by decide))
  rw [decide_eq_false (posOverall_notMem_coverageSet w)] at hbit
  exact hbit

/-- Settles O19: a finite table, compared row by row; bit 71 follows from the range of the members. -/
theorem coverageMasksAndSizes : Obligations.CoverageMasksAndSizes := by
  refine ⟨bitAt_coverageMask, ?sizes, ?masks, ?members1, ?members2, ?members4, ?members8, ?members16, ?members32,
    ?members64, ?overall⟩
  case masks => rfl
  case sizes | members1 | members2 | members4 | members8 | members16 | members32 | members64 => decide
  case overall => exact fun w hw => getLsbD_coverageMask_posOverall hw

end Sys2Proof.Machine
end

section
/-! Proofs of the encoder's statements (41_encoder.md R56, R57, R60). The checks come first: with the payload placement
they determine every parity bit, so the closed-form equations follow from them, and linearity from the equations. -/

namespace Sys2Proof.Machine

/-- What ENCODE has done when it answers a next state. -/
theorem exec_encode_eq_next {bits : List Bool} {s t : State} (h : exec (.encode bits) s = .next t) :
    t = s.writeEncoder (payloadOfSeq bits) (encodeWord (payloadOfSeq bits)) := by
  rw [exec_encode] at h
  split at h
  · exact (Host.Outcome.next.inj h).symm
  · cases h

/-! The checks of R56: each parity bit is written once, over a 0, with the XOR of the positions it must balance. -/

/-- After a held position takes the XOR of the list, the list's XOR is that position's old bit. -/
theorem xorOver_setAt_xorOver (c : Codeword) {p : Nat} {ps : List Nat} (hps : ∀ q ∈ ps, IsPosition q)
    (hnd : ps.Nodup) (hmem : p ∈ ps) :
    xorOver ps (bitAt (setAt c p (xorOver ps (bitAt c)))) = bitAt c p := by
  rw [xorOver_setAt_of_mem c p _ ps (hps p hmem) hps hnd hmem, Bool.xor_comm, ← Bool.xor_assoc,
    Bool.xor_self, Bool.false_xor]

/-- Step 3 for other weights leaves the XOR over `coverage(w)`. -/
theorem xorOver_coverageSet_foldl_setHamming {w : Nat} (hw : w ∈ Config.weights) (ws : List Nat) (c : Codeword)
    (hws : ∀ v ∈ ws, v ∈ Config.weights) (hmem : w ∉ ws) :
    xorOver (coverageSet w) (bitAt (ws.foldl setHamming c)) = xorOver (coverageSet w) (bitAt c) := by
  refine xorOver_congr fun q hq => bitAt_foldl_setHamming_of_notMem ws c (isPosition_of_mem_coverageSet hq)
    (fun v hv => isPosition_of_mem_weights (hws v hv)) fun hqws => hmem ?_
  rwa [← (weight_mem_coverageSet_iff (hws q hqws) hw).mp hq]

/-- Step 3 over weights without repeats, `w` among them: the XOR over `coverage(w)` ends as the bit first found
at w. -/
theorem xorOver_coverageSet_foldl_setHamming_of_mem {w : Nat} (hw : w ∈ Config.weights) (ws : List Nat)
    (c : Codeword) (hws : ∀ v ∈ ws, v ∈ Config.weights) (hnd : ws.Nodup) (hmem : w ∈ ws) :
    xorOver (coverageSet w) (bitAt (ws.foldl setHamming c)) = bitAt c w := by
  induction ws generalizing c with
  | nil => cases hmem
  | cons v ws ih =>
    obtain ⟨hv, hws'⟩ := List.forall_mem_cons.mp hws
    obtain ⟨hvws, hnd'⟩ := List.nodup_cons.mp hnd
    rw [List.foldl_cons]
    obtain rfl | hmem' := List.mem_cons.mp hmem
    · rw [xorOver_coverageSet_foldl_setHamming hw ws _ hws' hvws]
      exact xorOver_setAt_xorOver c (fun _ => isPosition_of_mem_coverageSet) (nodup_coverageSet w)
        ((weight_mem_coverageSet_iff hw hw).mpr rfl)
    · rw [ih _ hws' hnd' hmem', bitAt_setHamming_of_ne c (isPosition_of_mem_weights hv)
        (isPosition_of_mem_weights hw) fun e => hvws (e ▸ hmem')]

theorem bitAt_placePayload_of_parity (d : Payload) {q : Nat} (hq : IsPosition q) (hpar : isParityPos q = true) :
    bitAt (placePayload d) q = false := by
  rw [bitAt_placePayload d q hq, if_pos hpar]

/-- The check of every weight holds on the output: step 4 writes outside the coverage set. -/
theorem xorOver_coverageSet_encodeWord (d : Payload) {w : Nat} (hw : w ∈ Config.weights) :
    xorOver (coverageSet w) (bitAt (encodeWord d)) = false := by
  calc xorOver (coverageSet w) (bitAt (encodeWord d))
      = xorOver (coverageSet w) (bitAt (Config.weights.foldl setHamming (placePayload d))) :=
        xorOver_setAt_of_notMem _ _ _ _ (by decide) (fun _ => isPosition_of_mem_coverageSet)
          (posOverall_notMem_coverageSet w)
    _ = bitAt (placePayload d) w :=
        xorOver_coverageSet_foldl_setHamming_of_mem hw _ _ (fun _ hv => hv) (by decide) hw
    _ = false :=
        bitAt_placePayload_of_parity d (isPosition_of_mem_weights hw) ((isParityPos_iff w).mpr (.inl hw))

/-- The overall check holds on the output: position 72 is still 0 when step 4 writes it. -/
theorem xorOver_positions_encodeWord (d : Payload) : xorOver positions (bitAt (encodeWord d)) = false := by
  have hmem : Config.posOverall ∈ positions := (mem_positions _).mpr (by decide)
  calc xorOver positions (bitAt (encodeWord d))
      = bitAt (Config.weights.foldl setHamming (placePayload d)) Config.posOverall :=
        xorOver_setAt_xorOver _ (fun q => (mem_positions q).mp) positions_nodup hmem
    _ = bitAt (placePayload d) Config.posOverall :=
        bitAt_foldl_setHamming_of_notMem _ _ (by decide) (fun _ => isPosition_of_mem_weights) (by decide)
    _ = false := bitAt_placePayload_of_parity d (by decide) (by decide)

/-- A weight covers its own position, so adding it to its coverage adds nothing. -/
theorem checkSet_eq_coverageSet {w : Nat} (hw : w ∈ Config.weights) : checkSet w = coverageSet w := by
  have hself : covers w w = true := List.of_mem_filter ((weight_mem_coverageSet_iff hw hw).mpr rfl)
  refine List.filter_congr fun p _ => ?_
  by_cases hp : p = w
  · rw [hp, hself, Bool.true_or]
  · rw [beq_false_of_ne hp, Bool.or_false]

/-- Settles O23: the checks above, the round trip of `Extract`, and the frame of `writeEncoder`. -/
theorem encodeOutputPassesEveryCheck : Obligations.EncodeOutputPassesEveryCheck := by
  intro bits s t h
  obtain rfl := exec_encode_eq_next h
  refine ⟨fun w hw => ?checks, xorOver_positions_encodeWord _, extract_encodeWord _, rfl, rfl, rfl⟩
  rw [checkSet_eq_coverageSet hw]
  exact ⟨xorOver_coverageSet_encodeWord _ hw, xorOver_coverageSet_encodeWord _ hw⟩

/-! The parity bits as XOR trees over the payload (R57). A check splits into its parity positions and its payload
positions, and the latter are `pos(0)`, ..., `pos(63)`. -/

theorem xorOver_singleton (p : Nat) (f : Nat → Bool) : xorOver [p] f = f p := Bool.xor_false (f p)

theorem xorOver_map (ks : List Nat) (g : Nat → Nat) (f : Nat → Bool) :
    xorOver (ks.map g) f = xorOver ks fun k => f (g k) := by
  rw [xorOver, List.foldr_map, xorOver]

/-- A list's XOR, from the part that satisfies `m` and the rest. -/
theorem xorOver_split (m : Nat → Bool) (ps : List Nat) (f : Nat → Bool) :
    xorOver ps f = (xorOver (ps.filter m) f ^^ xorOver (ps.filter fun p => !m p) f) := by
  rw [xorOver_filter, xorOver_filter, ← xorOver_xor]
  refine xorOver_congr fun p _ => ?_
  cases m p <;> simp

theorem filter_payload_positions : positions.filter (fun p => !isParityPos p) = (List.range 64).map payloadPos := by
  decide

theorem filter_parity_positions : positions.filter isParityPos = Config.weights ++ [Config.posOverall] := by
  decide

theorem bitAt_encodeWord_payloadPos (d : Payload) {k : Nat} (hk : k < 64) :
    bitAt (encodeWord d) (payloadPos k) = d.getLsbD k := by
  rw [← getLsbD_extract _ hk, extract_encodeWord]

/-- Among the payload positions of a codeword, those that satisfy `m` hold the payload bits k with `m (pos k)`. -/
theorem xorOver_payload_encodeWord (d : Payload) (m : Nat → Bool) :
    xorOver ((positions.filter m).filter fun p => !isParityPos p) (bitAt (encodeWord d)) =
      xorOver (List.range 64) fun k => m (payloadPos k) && d.getLsbD k := by
  rw [List.filter_comm, filter_payload_positions, xorOver_filter, xorOver_map]
  refine xorOver_congr fun k hk => ?_
  rw [bitAt_encodeWord_payloadPos d (List.mem_range.mp hk)]

/-- The masks of the weights, by the positions they cover. -/
theorem getLsbD_treeMask_weight : ∀ w ∈ Config.weights, ∀ k < 64,
    (treeMask w).getLsbD k = (payloadPos k &&& w != 0) := by
  decide

theorem le_coverLast_payloadPos {k : Nat} (hk : k < 64) : payloadPos k ≤ Config.coverLast := by
  obtain ⟨-, hle⟩ := (isPosition_iff _).mp (isPosition_payloadPos hk)
  have hne := ne_posOverall_of_payload (isParityPos_payloadPos hk)
  simp only [Config.coverLast, Config.posOverall] at hne ⊢
  omega

/-- Bit k of the mask of a weight says whether the weight covers `pos(k)`. -/
theorem covers_payloadPos {w k : Nat} (hw : w ∈ Config.weights) (hk : k < 64) :
    covers w (payloadPos k) = (treeMask w).getLsbD k := by
  rw [covers, decide_eq_true (isPosition_payloadPos hk).1, decide_eq_true (le_coverLast_payloadPos hk),
    getLsbD_treeMask_weight w hw k hk, Bool.true_and, Bool.true_and]

/-- The parity bit of a weight: the one parity position in its check, so the XOR of the payload bits there. -/
theorem bitAt_encodeWord_weight (d : Payload) {w : Nat} (hw : w ∈ Config.weights) :
    bitAt (encodeWord d) w = parity (d &&& treeMask w) := by
  have hcheck := xorOver_coverageSet_encodeWord d hw
  rw [xorOver_split isParityPos, filter_isParityPos_coverageSet hw, xorOver_singleton, bne_eq_false_iff_eq]
    at hcheck
  rw [hcheck, coverageSet, xorOver_payload_encodeWord]
  refine xorOver_congr fun k hk => ?_
  rw [covers_payloadPos hw (List.mem_range.mp hk), BitVec.getLsbD_and, Bool.and_comm]

/-- XOR trees over the same word, put together: the XOR of the masks. -/
theorem parity_and_foldr_xor {n : Nat} (d m₀ : BitVec n) (m : Nat → BitVec n) (ws : List Nat) :
    parity (d &&& ws.foldr (fun w acc => m w ^^^ acc) m₀) =
      (xorOver ws (fun w => parity (d &&& m w)) ^^ parity (d &&& m₀)) := by
  induction ws with
  | nil => simp
  | cons w ws ih =>
    rw [List.foldr_cons, BitVec.and_comm, parity_and_xor, BitVec.and_comm _ d, BitVec.and_comm _ d, ih, xorOver_cons,
      Bool.xor_assoc]

/-- The mask of Q: each payload bit once for itself and once for each weight that covers it. -/
theorem treeMask_posOverall :
    treeMask Config.posOverall = Config.weights.foldr (fun w acc => treeMask w ^^^ acc) (BitVec.allOnes 64) := by
  decide

/-- The bit Q: the XOR of the seven parity bits and of the payload. -/
theorem bitAt_encodeWord_posOverall (d : Payload) :
    bitAt (encodeWord d) Config.posOverall = parity (d &&& treeMask Config.posOverall) := by
  have hcheck := xorOver_positions_encodeWord d
  have hweights : xorOver Config.weights (bitAt (encodeWord d)) =
      xorOver Config.weights fun w => parity (d &&& treeMask w) :=
    xorOver_congr fun w hw => bitAt_encodeWord_weight d hw
  have hpayload : xorOver (positions.filter fun p => !isParityPos p) (bitAt (encodeWord d)) = parity d := by
    rw [← List.filter_true positions, xorOver_payload_encodeWord]
    simp only [Bool.true_and, parity]
  rw [xorOver_split isParityPos, filter_parity_positions, xorOver_append, xorOver_singleton, hweights, hpayload,
    Bool.xor_comm _ (bitAt _ _), Bool.xor_assoc, bne_eq_false_iff_eq] at hcheck
  rw [treeMask_posOverall, parity_and_foldr_xor, BitVec.and_allOnes, hcheck]

/-- Every position of the output is the output of its tree. -/
theorem bitAt_encodeWord (d : Payload) {p : Nat} (hp : IsPosition p) :
    bitAt (encodeWord d) p = encodeTree d p := by
  cases hpar : isParityPos p
  case false => rw [bitAt_encodeWord_of_payload d hp hpar, encodeTree, hpar, if_neg Bool.false_ne_true]
  case true =>
    rw [encodeTree, if_pos hpar]
    obtain hw | rfl := (isParityPos_iff p).mp hpar
    · exact bitAt_encodeWord_weight d hw
    · exact bitAt_encodeWord_posOverall d

theorem bitAt_codewordOfSeq (l : List Bool) {p : Nat} (hp : IsPosition p) :
    bitAt (codewordOfSeq l) p = l.getD (p - 1) false := by
  obtain ⟨hlo, hhi⟩ := (isPosition_iff p).mp hp
  rw [bitAt, posIndex, codewordOfSeq, BitVec.getLsbD_ofNat, testBit_natOfBits, decide_eq_true (by omega),
    Bool.true_and]

theorem bitAt_encodeTrees (d : Payload) {p : Nat} (hp : IsPosition p) :
    bitAt (encodeTrees d) p = encodeTree d p := by
  obtain ⟨hlo, hhi⟩ := (isPosition_iff p).mp hp
  have hlt : p - 1 < 72 := by omega
  have hpred : 1 + (p - 1) = p := by omega
  rw [encodeTrees, bitAt_codewordOfSeq _ hp]
  simp [positions, hlt, hpred]

/-- ENCODE and the equations of R57 agree. -/
theorem encodeWord_eq_encodeTrees (d : Payload) : encodeWord d = encodeTrees d :=
  codeword_ext fun _ hp => (bitAt_encodeWord d hp).trans (bitAt_encodeTrees d hp).symm

/-- The mask of Q, by the number of weights that cover the position. -/
theorem getLsbD_treeMask_posOverall : ∀ k < 64,
    (treeMask 72).getLsbD k = (popcount (BitVec.ofNat 7 (payloadPos k)) % 2 == 0) := by
  decide

theorem popcount_treeMask_weights :
    Config.weights.map (fun w => popcount (treeMask w)) = [35, 35, 35, 31, 31, 31, 7] := by
  decide

/-- Settles O22: one tree for each parity position (position p is bus bit p - 1), the placement for the others. -/
theorem encodeDrivesTheXorTrees : Obligations.EncodeDrivesTheXorTrees := by
  refine ⟨fun bits s hbits => ?drives, getLsbD_treeMask_weight, getLsbD_treeMask_posOverall,
    popcount_treeMask_weights⟩
  have tree (w : Nat) (hw : w ∈ Config.weights) := bitAt_encodeWord_weight (payloadOfSeq bits) hw
  refine ⟨encodeWord (payloadOfSeq bits), (exec_encode bits s).trans (if_pos hbits), tree 1 (by decide),
    tree 2 (by decide), tree 4 (by decide), tree 8 (by decide), tree 16 (by decide), tree 32 (by decide),
    tree 64 (by decide), bitAt_encodeWord_posOverall _, fun k hk => ?payload, encodeWord_eq_encodeTrees _⟩
  exact (bitAt_encodeWord_payloadPos _ hk).trans (getLsbD_payloadOfSeq bits hk)

/-! Linearity (R60), tree by tree. -/

theorem encodeTree_xor (a b : Payload) (p : Nat) :
    encodeTree (a ^^^ b) p = (encodeTree a p ^^ encodeTree b p) := by
  unfold encodeTree
  split
  · exact parity_and_xor (treeMask p) a b
  · exact BitVec.getLsbD_xor

theorem encodeWord_xor (a b : Payload) : encodeWord (a ^^^ b) = encodeWord a ^^^ encodeWord b := by
  refine codeword_ext fun p hp => ?_
  rw [bitAt_xor, bitAt_encodeWord _ hp, bitAt_encodeWord _ hp, bitAt_encodeWord _ hp, encodeTree_xor]

/-- A linear function sends 0 = 0 ⊕ 0 to 0. -/
theorem encodeWord_zero : encodeWord 0 = 0 := by
  have h := encodeWord_xor 0 0
  rwa [BitVec.xor_self, BitVec.xor_self] at h

/-- Settles O24: `exec` on every payload word is already a lemma; linearity comes from the trees. -/
theorem encodeIsTotalAndLinear : Obligations.EncodeIsTotalAndLinear :=
  ⟨encodesTo_encodeWord, encodeWord_xor, encodeWord_zero⟩

end Sys2Proof.Machine
end

section
/-! Proofs of the decoder's statements about its signals: the checks s_w, the syndrome S and the overall parity P
(42_decoder.md R63 to R65). -/

namespace Sys2Proof.Machine

/-! P (R65). -/

theorem positions_eq_map : positions = (List.range 72).map (1 + ·) := List.range'_eq_map_range

/-- Position p is bus bit p - 1, so the parity of the port word is the XOR over the positions. -/
theorem parity_eq_xorOver_positions (c : Codeword) : parity c = xorOver positions (bitAt c) := by
  rw [positions_eq_map, xorOver_map, parity]
  refine xorOver_congr fun k _ => ?_
  rw [bitAt, posIndex, Nat.add_sub_cancel_left]

/-- Settles O29: 1..72 is the list `positions` that P runs over. -/
theorem overallParityIsTheXorOfAll72Bits : Obligations.OverallParityIsTheXorOfAll72Bits :=
  fun c => ⟨rfl, (parity_eq_xorOver_positions c).symm⟩

/-! The checks (R63). -/

theorem checkBit_eq_xorOver_coverageSet (c : Codeword) {w : Nat} (hw : w ∈ Config.weights) :
    checkBit c w = xorOver (coverageSet w) (bitAt c) := by
  rw [checkBit, checkSet_eq_coverageSet hw]

theorem decide_mem_coverageSet (w : Nat) {p : Nat} (hp : IsPosition p) : decide (p ∈ coverageSet w) = covers w p := by
  simp [coverageSet, hp]

theorem bitAt_and (a b : Codeword) (p : Nat) : bitAt (a &&& b) p = (bitAt a p && bitAt b p) := BitVec.getLsbD_and

/-- Reading the covered positions alone is masking the word. -/
theorem parity_and_coverageMask (c : Codeword) {w : Nat} (hw : w ∈ Config.weights) :
    parity (c &&& coverageMask w) = xorOver (coverageSet w) (bitAt c) := by
  rw [parity_eq_xorOver_positions, coverageSet, xorOver_filter]
  refine xorOver_congr fun p hp => ?_
  rw [bitAt_and, bitAt_coverageMask w hw p hp, decide_mem_coverageSet w ((mem_positions p).mp hp), Bool.and_comm]

theorem checkBit_eq_parity (c : Codeword) {w : Nat} (hw : w ∈ Config.weights) :
    checkBit c w = parity (c &&& coverageMask w) := by
  rw [checkBit_eq_xorOver_coverageSet c hw, parity_and_coverageMask c hw]

/-- A codeword written out position by position. -/
theorem bitAt_codewordOfSeq_map (f : Nat → Bool) {p : Nat} (hp : IsPosition p) :
    bitAt (codewordOfSeq (positions.map f)) p = f p := by
  obtain ⟨hlo, hhi⟩ := (isPosition_iff p).mp hp
  have hlt : p - 1 < 72 := by omega
  have hpred : 1 + (p - 1) = p := by omega
  rw [bitAt_codewordOfSeq _ hp]
  simp [positions, hlt, hpred]

/-- The codeword with the bit `f p` at each parity position p, and 0 at the payload positions. -/
def parityWord (f : Nat → Bool) : Codeword := codewordOfSeq (positions.map fun p => isParityPos p && f p)

/-- Each check reads one parity position, its own, so the parity positions set the checks one by one. -/
theorem checkBit_parityWord (f : Nat → Bool) {w : Nat} (hw : w ∈ Config.weights) :
    checkBit (parityWord f) w = f w := by
  calc checkBit (parityWord f) w
      = xorOver (coverageSet w) (bitAt (parityWord f)) := checkBit_eq_xorOver_coverageSet _ hw
    _ = xorOver (coverageSet w) fun p => isParityPos p && f p :=
        xorOver_congr fun _ hp => bitAt_codewordOfSeq_map _ (isPosition_of_mem_coverageSet hp)
    _ = xorOver [w] f := by rw [← xorOver_filter, filter_isParityPos_coverageSet hw]
    _ = f w := xorOver_singleton w f

/-- Settles O27: a weight covers itself, the masks are the coverage sets, and `parityWord` reaches every combination. -/
theorem checksAreTheMaskParities : Obligations.ChecksAreTheMaskParities := by
  refine ⟨fun w hw => ⟨checkSet_eq_coverageSet hw, (weight_mem_coverageSet_iff hw hw).mpr rfl⟩, fun c w hw => ?_,
    fun f => ⟨parityWord f, fun w hw => checkBit_parityWord f hw⟩⟩
  exact ⟨checkBit_eq_xorOver_coverageSet c hw, checkBit_eq_parity c hw⟩

/-! S (R64). The weights are the powers of two below 128, so the weighted sum is a number written in binary. -/

theorem sum_weights_eq_natOfBits (f : Nat → Bool) :
    (Config.weights.map fun w => (f w).toNat * w).sum = natOfBits (Config.weights.map f) := by
  simp only [Config.weights, List.map_cons, List.map_nil, List.sum_cons, List.sum_nil, natOfBits]
  omega

/-- No carry leaves the seven bits. -/
theorem toNat_syndrome (c : Codeword) : (syndrome c).toNat = natOfBits (Config.weights.map (checkBit c)) := by
  have hlt : natOfBits (Config.weights.map (checkBit c)) < 2 ^ 7 := natOfBits_lt _
  rw [syndrome, sum_weights_eq_natOfBits, BitVec.toNat_ofNat, Nat.mod_eq_of_lt hlt]

theorem weights_getElem? {j : Nat} (hj : j < 7) : Config.weights[j]? = some (2 ^ j) := by
  revert j; decide

theorem getLsbD_syndrome (c : Codeword) {j : Nat} (hj : j < 7) : (syndrome c).getLsbD j = checkBit c (2 ^ j) := by
  rw [BitVec.getLsbD, toNat_syndrome, testBit_natOfBits, List.getD, List.getElem?_map, weights_getElem? hj]
  rfl

/-- Every syndrome occurs: set the parity position `2 ^ j` to bit j. -/
theorem exists_syndrome_eq (v : Syndrome) : ∃ c, syndrome c = v := by
  refine ⟨parityWord fun w => v.getLsbD w.log2, BitVec.eq_of_getLsbD_eq fun j hj => ?_⟩
  rw [getLsbD_syndrome _ hj, checkBit_parityWord _ (two_pow_mem_weights hj), Nat.log2_two_pow]

/-- Settles O28: S is the binary number of the checks, and the checks take every combination. -/
theorem syndromeBitsAreTheChecks : Obligations.SyndromeBitsAreTheChecks := by
  refine ⟨fun c => ⟨?sum, fun j hj => getLsbD_syndrome c hj⟩, exists_syndrome_eq⟩
  rw [toNat_syndrome, sum_weights_eq_natOfBits]

end Sys2Proof.Machine
end

section
/-! Proofs of the decoder's statements about its output ports: the closed-form logic and the rows a consumer reads
(42_decoder.md R66, R67). -/

namespace Sys2Proof.Machine

theorem syndromeTrees_eq_syndrome (c : Codeword) : syndromeTrees c = syndrome c := by
  rw [syndromeTrees, syndrome, sum_weights_eq_natOfBits,
    List.map_congr_left fun w hw => (checkBit_eq_parity c hw).symm]

/-- The port logic, row by row of the classifier. -/
theorem decodeTrees_eq_bus (c : Codeword) : decodeTrees c = bus (decodeWord c) := by
  rw [decodeTrees, syndromeTrees_eq_syndrome, parity_eq_xorOver_positions, ← overallParity, decodeWord]
  by_cases hS : syndrome c = 0#7 <;> cases overallParity c
  · simp [hS, bus]
  · simp [hS, bus]
  · simp [hS, bus, classify_false_of_ne hS]
  · simp [hS, bus, classify_true_of_ne hS]

/-- Settles O30: DECODE drives the bus form of its outcome, which is what the port logic gives. -/
theorem decodeDrivesThePortLogic : Obligations.DecodeDrivesThePortLogic := by
  intro bits s hbits
  rw [exec_decode, if_pos hbits, decodeTrees_eq_bus]
  rfl

/-- A consumer reads back every outcome but a single error at the position 0, which does not exist. -/
theorem unbus_bus {o : DecodeOutcome} (ho : o ≠ .singleCorrectableError 0#7) :
    unbus (bus o).1 (bus o).2 = .ok o := by
  cases o with
  | noError => rfl
  | doubleErrorDetected => rfl
  | singleCorrectableError q =>
    have hq : q ≠ 0#7 := fun h => ho (h ▸ rfl)
    simp [bus, unbus, hq]

theorem classify_ne_singleCorrectableError_zero (S : Syndrome) (P : Bool) :
    classify S P ≠ .singleCorrectableError 0#7 := by
  by_cases hS : S = 0#7
  · subst hS; cases P <;> decide
  · cases P
    · simp [classify_false_of_ne hS]
    · simpa [classify_true_of_ne hS] using hS

/-- After DECODE a consumer reads what the classifier makes of the signals of the present input. -/
theorem readOutcome_of_exec_decode {bits : List Bool} {s t : State} (h : exec (.decode bits) s = .next t) :
    t.readOutcome = .ok (classify t.syndrome t.overallParity) := by
  rw [exec_decode] at h
  split at h
  · obtain rfl := Host.Outcome.next.inj h
    exact unbus_bus (classify_ne_singleCorrectableError_zero _ _)
  · cases h

/-- Settles O31: the four rows of `classify`, read through the ports. -/
theorem classifierHasFourRows : Obligations.ClassifierHasFourRows := by
  intro bits s hbits
  obtain ⟨t, ht⟩ : ∃ t, exec (.decode bits) s = .next t := ⟨_, (exec_decode bits s).trans (if_pos hbits)⟩
  have hread := readOutcome_of_exec_decode ht
  refine ⟨t, ht, fun hS hP => ?none, fun hS hP => ?single, fun hS hP => ?double, fun hS hP => ?overall⟩
  case none => rw [hread, hS, hP]; rfl
  case single => rw [hread, hP, classify_true_of_ne hS]
  case double => rw [hread, hP, classify_false_of_ne hS]
  case overall => rw [hread, hS, hP]; rfl

end Sys2Proof.Machine
end

section
/-! Proofs of the decoder's guarantees (42_decoder.md R68 to R75). A codeword passes every check and the checks are
linear, so DECODE sees the error pattern alone; what is left is to classify the patterns. -/

namespace Sys2Proof.Machine

/-! The error pattern decides (R75). -/

theorem syndrome_xor (a b : Codeword) : syndrome (a ^^^ b) = syndrome a ^^^ syndrome b := by
  refine BitVec.eq_of_getLsbD_eq fun j hj => ?_
  rw [BitVec.getLsbD_xor, getLsbD_syndrome _ hj, getLsbD_syndrome _ hj, getLsbD_syndrome _ hj, checkBit_xor]

theorem syndrome_encodeWord (d : Payload) : syndrome (encodeWord d) = 0#7 := by
  refine BitVec.eq_of_getLsbD_eq fun j hj => ?_
  rw [getLsbD_syndrome _ hj, checkBit_eq_xorOver_coverageSet _ (two_pow_mem_weights hj),
    xorOver_coverageSet_encodeWord d (two_pow_mem_weights hj), BitVec.getLsbD_zero]

theorem overallParity_encodeWord (d : Payload) : overallParity (encodeWord d) = false :=
  xorOver_positions_encodeWord d

theorem syndrome_encodeWord_xor (d : Payload) (e : Codeword) : syndrome (encodeWord d ^^^ e) = syndrome e := by
  rw [syndrome_xor, syndrome_encodeWord, BitVec.zero_xor]

theorem overallParity_encodeWord_xor (d : Payload) (e : Codeword) :
    overallParity (encodeWord d ^^^ e) = overallParity e := by
  rw [overallParity_xor, overallParity_encodeWord, Bool.false_xor]

theorem decodeWord_encodeWord_xor (d : Payload) (e : Codeword) :
    decodeWord (encodeWord d ^^^ e) = decodeWord e := by
  rw [decodeWord, syndrome_encodeWord_xor, overallParity_encodeWord_xor, decodeWord]

/-- DECODE of a codeword with the error pattern `e` ends in the outcome of `e`. -/
theorem decodesTo_encodeWord_xor (d : Payload) (e : Codeword) : DecodesTo (encodeWord d ^^^ e) (decodeWord e) :=
  decodeWord_encodeWord_xor d e ▸ decodesTo_decodeWord _

/-- Settles O40: S and P are linear, and 0 on a codeword. -/
theorem decodeDependsOnlyOnTheErrorPattern : Obligations.DecodeDependsOnlyOnTheErrorPattern := fun d e =>
  ⟨encodeWord d, decodeWord e, encodesTo_encodeWord d, syndrome_encodeWord_xor d e, overallParity_encodeWord_xor d e,
    decodesTo_encodeWord_xor d e, decodesTo_decodeWord e⟩

/-! No flip (R68). -/

theorem decodeWord_encodeWord (d : Payload) : decodeWord (encodeWord d) = .noError := by
  rw [decodeWord, syndrome_encodeWord, overallParity_encodeWord, classify_zero_false]

theorem decodesTo_encodeWord (d : Payload) : DecodesTo (encodeWord d) .noError :=
  decodeWord_encodeWord d ▸ decodesTo_decodeWord _

/-- Settles O34: a codeword passes every check. -/
theorem noFlipIsNoError : Obligations.NoFlipIsNoError := fun d =>
  ⟨encodeWord d, encodesTo_encodeWord d, decodesTo_encodeWord d⟩

/-! One flip (R69). -/

/-- The error pattern of one flip, at position p. -/
abbrev errorAt (p : Nat) : Codeword := BitVec.twoPow 72 (posIndex p)

theorem flip_of_isPosition (c : Codeword) {p : Nat} (hp : IsPosition p) : flip c p = .ok (c ^^^ errorAt p) :=
  (flip_spec c p).trans (if_pos hp)

/-- What `flip` has done when it answers a word. -/
theorem flip_eq_ok {c c' : Codeword} {p : Nat} (h : flip c p = .ok c') : IsPosition p ∧ c' = c ^^^ errorAt p := by
  rw [flip_spec] at h
  split at h
  · exact ⟨‹_›, (Except.ok.inj h).symm⟩
  · cases h

/-- The checks that read position p are the binary digits of p (40_coverage_map.md R53); Q, at 72, is in none. -/
theorem checkBit_errorAt {p j : Nat} (hp : IsPosition p) (hj : j < 7) :
    checkBit (errorAt p) (2 ^ j) = (decide (p ≤ 71) && p.testBit j) := by
  have hw := two_pow_mem_weights hj
  rw [checkBit_twoPow p _ hp, checkSet_eq_coverageSet hw]
  by_cases hle : p ≤ 71
  · have hrange : p ∈ List.range' 1 71 := List.mem_range'_1.mpr ⟨hp.1, by omega⟩
    rw [decide_mem_coverageSet _ hp, covers_two_pow hrange, decide_eq_true hle, Bool.true_and]
  · have hnot : p ∉ coverageSet (2 ^ j) := fun hmem => hle ((mem_coverageSet _ _).mp hmem).2.1
    rw [decide_eq_false hnot, decide_eq_false hle, Bool.false_and]

/-- One flip makes S the position, or 0 at the position 72. -/
theorem syndrome_errorAt {p : Nat} (hp : IsPosition p) :
    syndrome (errorAt p) = if p ≤ 71 then BitVec.ofNat 7 p else 0#7 := by
  refine BitVec.eq_of_getLsbD_eq fun j hj => ?_
  rw [getLsbD_syndrome _ hj, checkBit_errorAt hp hj]
  by_cases hle : p ≤ 71
  · rw [if_pos hle, BitVec.getLsbD_ofNat, decide_eq_true hle, decide_eq_true hj]
  · rw [if_neg hle, BitVec.getLsbD_zero, decide_eq_false hle, Bool.false_and]

/-- A position fits the seven bits of the position port. -/
theorem toNat_ofNat_of_isPosition {p : Nat} (hp : IsPosition p) : (BitVec.ofNat 7 p).toNat = p := by
  obtain ⟨-, hhi⟩ := (isPosition_iff p).mp hp
  rw [BitVec.toNat_ofNat, Nat.mod_eq_of_lt (by omega)]

theorem toNat_syndrome_errorAt {p : Nat} (hp : IsPosition p) :
    (syndrome (errorAt p)).toNat = if p ≤ 71 then p else 0 := by
  rw [syndrome_errorAt hp]
  split
  · exact toNat_ofNat_of_isPosition hp
  · rfl

theorem decodeWord_errorAt {p : Nat} (hp : IsPosition p) :
    decodeWord (errorAt p) = .singleCorrectableError (BitVec.ofNat 7 p) := by
  obtain ⟨hlo, hhi⟩ := (isPosition_iff p).mp hp
  rw [decodeWord, overallParity_twoPow p hp]
  by_cases hle : p ≤ 71
  · have hne : syndrome (errorAt p) ≠ 0#7 := fun h => by
      have hnat := toNat_syndrome_errorAt hp
      rw [h, if_pos hle, BitVec.toNat_zero] at hnat
      omega
    rw [classify_true_of_ne hne, syndrome_errorAt hp, if_pos hle]
  · obtain rfl : p = 72 := by omega
    rw [syndrome_errorAt hp, if_neg hle, classify_zero_true]

theorem decodesTo_one_flip (d : Payload) {p : Nat} (hp : IsPosition p) :
    DecodesTo (encodeWord d ^^^ errorAt p) (.singleCorrectableError (BitVec.ofNat 7 p)) :=
  decodeWord_errorAt hp ▸ decodesTo_encodeWord_xor d (errorAt p)

/-- Settles O35: P is odd and S is the position, but for 72, where S is 0 and the classifier's last row answers. -/
theorem oneFlipIsReportedAtItsExactPosition : Obligations.OneFlipIsReportedAtItsExactPosition := fun d _ hp =>
  ⟨encodeWord d, _, encodesTo_encodeWord d, flip_of_isPosition _ hp, decodesTo_one_flip d hp⟩

/-! One flip is corrected (R73). -/

/-- Settles O39: the report is the flipped position, and the same flip again undoes it. -/
theorem oneFlipIsCorrected : Obligations.OneFlipIsCorrected := by
  intro d p hp
  have hq := toNat_ofNat_of_isPosition hp
  have hback : encodeWord d ^^^ errorAt p ^^^ errorAt p = encodeWord d := by
    rw [BitVec.xor_assoc, BitVec.xor_self, BitVec.xor_zero]
  refine ⟨encodeWord d, _, BitVec.ofNat 7 p, encodesTo_encodeWord d, flip_of_isPosition _ hp, decodesTo_one_flip d hp,
    hq, ?flip, ?harness, decodesTo_encodeWord d, extract_encodeWord d⟩
  case flip => rw [flip_of_isPosition _ hp, hback]
  case harness => rw [correctIfSingle_single, hq, if_pos hp, hback]

/-! Two flips (R70). -/

/-- Distinct positions have distinct syndromes: 1 to 71 their own number, 72 alone 0. -/
theorem syndrome_errorAt_inj {p q : Nat} (hp : IsPosition p) (hq : IsPosition q)
    (h : syndrome (errorAt p) = syndrome (errorAt q)) : p = q := by
  have hnat := congrArg BitVec.toNat h
  rw [toNat_syndrome_errorAt hp, toNat_syndrome_errorAt hq] at hnat
  rw [isPosition_iff] at hp hq
  split_ifs at hnat <;> omega

theorem decodeWord_errorAt_xor_errorAt {p q : Nat} (hp : IsPosition p) (hq : IsPosition q) (hne : p ≠ q) :
    decodeWord (errorAt p ^^^ errorAt q) = .doubleErrorDetected := by
  have hS : syndrome (errorAt p ^^^ errorAt q) ≠ 0#7 := fun h =>
    hne (syndrome_errorAt_inj hp hq (BitVec.xor_eq_zero_iff.mp (syndrome_xor _ _ ▸ h)))
  have hP : overallParity (errorAt p ^^^ errorAt q) = false := by
    rw [overallParity_xor, overallParity_twoPow p hp, overallParity_twoPow q hq, Bool.xor_self]
  rw [decodeWord, hP, classify_false_of_ne hS]

/-- Settles O36: P is even, and S is the XOR of two distinct syndromes. -/
theorem twoFlipsAreAlwaysDetected : Obligations.TwoFlipsAreAlwaysDetected := by
  intro d p q hp hq hne
  refine ⟨encodeWord d, _, _, encodesTo_encodeWord d, flip_of_isPosition _ hp, flip_of_isPosition _ hq, ?_⟩
  rw [BitVec.xor_assoc, ← decodeWord_errorAt_xor_errorAt hp hq hne]
  exact decodesTo_encodeWord_xor d _

/-! Any number of flips, and the syndromes from 72 up (R72). -/

/-- The error pattern of flips at the positions of a list. -/
def errorPattern (ps : List Nat) : Codeword := ps.foldr (fun p e => errorAt p ^^^ e) 0#72

@[simp] theorem errorPattern_nil : errorPattern [] = 0#72 := rfl
@[simp] theorem errorPattern_cons (p : Nat) (ps : List Nat) :
    errorPattern (p :: ps) = errorAt p ^^^ errorPattern ps := rfl

/-- What `flipAll` has done when it answers a word. -/
theorem flipAll_eq_ok {ps : List Nat} {c c' : Codeword} (h : flipAll ps c = .ok c') :
    (∀ p ∈ ps, IsPosition p) ∧ c' = c ^^^ errorPattern ps := by
  induction ps generalizing c with
  | nil =>
    obtain rfl := Except.ok.inj h
    exact ⟨by simp, BitVec.xor_zero.symm⟩
  | cons p ps ih =>
    rw [flipAll] at h
    cases hflip : flip c p with
    | error r => rw [hflip] at h; cases h
    | ok c₁ =>
      rw [hflip] at h
      obtain ⟨hp, rfl⟩ := flip_eq_ok hflip
      obtain ⟨hps, rfl⟩ := ih h
      exact ⟨List.forall_mem_cons.mpr ⟨hp, hps⟩, BitVec.xor_assoc ..⟩

theorem overallParity_errorPattern {ps : List Nat} (hps : ∀ p ∈ ps, IsPosition p) :
    overallParity (errorPattern ps) = decide (ps.length % 2 = 1) := by
  induction ps with
  | nil => exact (xorOver_congr fun p _ => bitAt_zero p).trans (xorOver_false positions)
  | cons p ps ih =>
    obtain ⟨hp, hps'⟩ := List.forall_mem_cons.mp hps
    rw [errorPattern_cons, overallParity_xor, overallParity_twoPow p hp, ih hps', Bool.true_xor, List.length_cons,
      ← decide_not, decide_eq_decide]
    omega

/-- The codeword of a payload is unique. -/
theorem eq_encodeWord_of_encodesTo {d : Payload} {c : Codeword} (h : EncodesTo d c) : c = encodeWord d := by
  have hnext := (h State.reset).symm.trans (encodesTo_encodeWord d State.reset)
  exact congrArg (·.encoder.cw) (Host.Outcome.next.inj hnext)

/-- Fewer than three flips that leave P odd are one flip, whose syndrome is at most 71. -/
theorem three_le_length_of_syndrome {ps : List Nat} (hps : ∀ p ∈ ps, IsPosition p)
    (hP : overallParity (errorPattern ps) = true) (hS : 72 ≤ (syndrome (errorPattern ps)).toNat) :
    3 ≤ ps.length := by
  rw [overallParity_errorPattern hps, decide_eq_true_eq] at hP
  by_contra hlt
  obtain ⟨p, rfl⟩ := List.length_eq_one_iff.mp (show ps.length = 1 by omega)
  rw [errorPattern_cons, errorPattern_nil, BitVec.xor_zero, toNat_syndrome_errorAt (hps p (by simp))] at hS
  split_ifs at hS <;> omega

/-- The position 72 is in no check, so it sets the overall parity and leaves the syndrome. -/
theorem exists_syndrome_eq_and_overallParity (v : Syndrome) (P : Bool) :
    ∃ c, syndrome c = v ∧ overallParity c = P := by
  obtain ⟨c, rfl⟩ := exists_syndrome_eq v
  have h72 : IsPosition 72 := by decide
  by_cases hP : overallParity c = P
  · exact ⟨c, rfl, hP⟩
  · refine ⟨c ^^^ errorAt 72, ?_, ?_⟩
    · rw [syndrome_xor, syndrome_errorAt h72, if_neg (by decide), BitVec.xor_zero]
    · rw [overallParity_xor, overallParity_twoPow 72 h72, Bool.xor_true]
      exact Bool.not_eq.mpr hP

/-- With odd parity a syndrome of 72 or more is reported as it is. -/
theorem decodesTo_syndrome {c : Codeword} (hP : overallParity c = true) (hS : 72 ≤ (syndrome c).toNat) :
    DecodesTo c (.singleCorrectableError (syndrome c)) := by
  have hne : syndrome c ≠ 0#7 := fun h => by simp [h] at hS
  rw [← classify_true_of_ne hne, ← hP]
  exact decodesTo_decodeWord c

/-- Settles O38: the classifier compares S with 0 alone, and one flip gives a syndrome of at most 71. The report 72 of a
flip of Q comes from the row with S = 0. -/
theorem syndromesFrom72UpAreReportedRaw : Obligations.SyndromesFrom72UpAreReportedRaw := by
  refine ⟨fun c => decodesTo_syndrome, ?flips, ?occurs, ?refused, ?overall⟩
  case flips =>
    intro d ps c c' _ hc hflips hP hS
    obtain rfl := eq_encodeWord_of_encodesTo hc
    obtain ⟨hps, rfl⟩ := flipAll_eq_ok hflips
    rw [overallParity_encodeWord_xor] at hP
    rw [syndrome_encodeWord_xor] at hS
    exact three_le_length_of_syndrome hps hP hS
  case occurs =>
    intro v hv
    obtain ⟨c, rfl, hP⟩ := exists_syndrome_eq_and_overallParity v true
    exact ⟨c, rfl, decodesTo_syndrome hP hv⟩
  case refused =>
    intro c v hv
    exact (flip_spec c v.toNat).trans (if_neg fun hp => Nat.not_le.mpr hv hp.2)
  case overall =>
    intro d
    have h72 : IsPosition 72 := by decide
    exact ⟨encodeWord d, _, encodesTo_encodeWord d, flip_of_isPosition _ h72, decodesTo_one_flip d h72⟩

end Sys2Proof.Machine
end

section
/-! Proofs of the exceptions' statements (60_exceptions.md R76, R79): well-formedness alone decides between a next state
and `InvalidLength`. -/

namespace Sys2Proof.Machine

theorem exec_eq_next_of_wellFormed {i : Instr} (hi : i.WellFormed) (s : State) : ∃ t, exec i s = .next t := by
  cases i with
  | encode d => exact ⟨_, (exec_encode d s).trans (if_pos ((Instr.wellFormed_encode d).mp hi))⟩
  | decode c => exact ⟨_, (exec_decode c s).trans (if_pos ((Instr.wellFormed_decode c).mp hi))⟩

theorem exec_eq_invalidLength_of_not_wellFormed {i : Instr} (hi : ¬ i.WellFormed) (s : State) :
    exec i s = .fault (.invalidLength i.operation i.operand.length) := by
  cases i with
  | encode d => exact (exec_encode d s).trans (if_neg (mt (Instr.wellFormed_encode d).mpr hi))
  | decode c => exact (exec_decode c s).trans (if_neg (mt (Instr.wellFormed_decode c).mpr hi))

/-- Settles O9: the two lemmas above. -/
theorem noInputButAWrongLengthFaults : Obligations.NoInputButAWrongLengthFaults := fun _ s =>
  ⟨fun hi => exec_eq_next_of_wellFormed hi s, fun hi => exec_eq_invalidLength_of_not_wellFormed hi s⟩

/-- The fault rules out a next state, so it is raised on ill-formed instructions only. -/
theorem exec_eq_invalidLength_iff (i : Instr) (s : State) :
    exec i s = .fault (.invalidLength i.operation i.operand.length) ↔ ¬ i.WellFormed := by
  constructor
  · intro hfault hi
    obtain ⟨t, hnext⟩ := exec_eq_next_of_wellFormed hi s
    simp [hfault] at hnext
  · exact fun hi => exec_eq_invalidLength_of_not_wellFormed hi s

theorem exec_ne_next_of_not_wellFormed {i : Instr} (hi : ¬ i.WellFormed) (s t : State) : exec i s ≠ .next t := by
  simp [exec_eq_invalidLength_of_not_wellFormed hi s]

/-- Settles O8: `exec_eq_invalidLength_iff` at each operation, whose instruction is well-formed at its own width. -/
theorem invalidLengthIsRaisedExactlyOnWrongLengths : Obligations.InvalidLengthIsRaisedExactlyOnWrongLengths := by
  refine ⟨fun bits s => ⟨?encode, ?decode, ?encodeNoNext, ?decodeNoNext⟩, fun _ _ => rfl⟩
  case encode => exact (exec_eq_invalidLength_iff (.encode bits) s).trans (Instr.wellFormed_encode bits).not
  case decode => exact (exec_eq_invalidLength_iff (.decode bits) s).trans (Instr.wellFormed_decode bits).not
  case encodeNoNext =>
    exact fun hn t => exec_ne_next_of_not_wellFormed (mt (Instr.wellFormed_encode bits).mp hn) s t
  case decodeNoNext =>
    exact fun hn t => exec_ne_next_of_not_wellFormed (mt (Instr.wellFormed_decode bits).mp hn) s t

end Sys2Proof.Machine
end

section
/-! Proofs of the statements about steps and runs (10_state.md R14, R15, R24; 30_encoding.md R45; 60_exceptions.md R76,
R79): a step runs the oldest drive, and a drive of its block's length always decodes. -/

namespace Sys2Proof.Machine

/-! One step. -/

theorem decode_of_length_ne {v : Drive} (h : v.bits.length ≠ Config.inputLength v.block.operation) :
    decode v = .error (.invalidLength v.block.operation v.bits.length) :=
  if_neg h

/-- The length is all that `decode` checks. -/
theorem exists_decode_of_length {v : Drive} (h : v.bits.length = Config.inputLength v.block.operation) :
    ∃ i, decode v = .ok i := by
  obtain ⟨_ | _, bits⟩ := v
  · exact ⟨.encode bits, if_pos h⟩
  · exact ⟨.decode bits, if_pos h⟩

theorem step_of_decode {s : State} {v : Drive} {rest : List Drive} {i : Instr} (hs : s.inputs = v :: rest)
    (hv : decode v = .ok i) : step s = exec i { s with inputs := rest } := by
  rw [step_of_cons hs, runDrive_spec, hv]

/-- Settles O4: only well-formed instructions come out of `decode`. -/
theorem stepRunsTheDecodedInstruction : Obligations.StepRunsTheDecodedInstruction := by
  intro s v rest i hs hv
  obtain ⟨-, hwf⟩ := (decode_eq_ok v i).mp hv
  exact ⟨hwf, step_of_decode hs hv⟩

/-- Settles O5: the first row of `step`. -/
theorem stepWithNothingToPresentLeavesTheState : Obligations.StepWithNothingToPresentLeavesTheState :=
  fun _ => step_of_nil

/-- Settles O6: `decode` refuses the drive with its operation and length, and the step raises just that. -/
theorem stepOnAWrongLengthIsInvalidLength : Obligations.StepOnAWrongLengthIsInvalidLength := by
  intro s v rest hs hlen
  rw [step_of_cons hs, runDrive_spec, decode_of_length_ne hlen]

/-- Settles O7: the word's drive is the oldest, and taking it gives `s` back. -/
theorem stepRunsAPresentedTableWord : Obligations.StepRunsAPresentedTableWord := by
  intro s nbits w i hw
  obtain ⟨-, hdrive, hwf⟩ := (decodeTableWord_eq_some nbits w i).mp hw
  exact step_of_decode (State.withFetchWord_inputs s nbits w) ((decode_eq_ok _ i).mpr ⟨hdrive, hwf⟩)

/-! The invariant: outputs follow inputs. -/

/-- Settles O1: ENCODE(0) is 0, and 0 is a codeword, so DECODE(0) is NoError. -/
theorem resetOutputsAreTheBlockFunctions : Obligations.ResetOutputsAreTheBlockFunctions := by
  have hdecode : decodeWord 0 = .noError := encodeWord_zero ▸ decodeWord_encodeWord 0
  exact ⟨⟨encodeWord_zero.symm, (congrArg bus hdecode).symm⟩, rfl⟩

/-- Settles O2: the driven block's outputs are written from its new input, and the other block is not touched. -/
theorem everyStepKeepsOutputsEqualToTheBlockFunctions :
    Obligations.EveryStepKeepsOutputsEqualToTheBlockFunctions := by
  rintro s t ⟨hencoder, hdecoder⟩ hstep
  obtain ⟨-, rfl⟩ | ⟨d, rest, -, -, rfl⟩ | ⟨c, rest, -, -, rfl⟩ := step_cases hstep
  · exact ⟨hencoder, hdecoder⟩
  · exact ⟨rfl, hdecoder⟩
  · exact ⟨hencoder, rfl⟩

/-! Runs. -/

/-- A step that answers a next state has taken the oldest drive, if there was one. -/
theorem step_inputs {s t : State} (hstep : step s = .next t) : t.inputs = s.inputs.drop 1 := by
  obtain ⟨hs, rfl⟩ | ⟨d, rest, hs, -, rfl⟩ | ⟨c, rest, hs, -, rfl⟩ := step_cases hstep
  · rw [hs, List.drop_nil]
  · rw [hs, List.drop_one, List.tail_cons]
  · rw [hs, List.drop_one, List.tail_cons]

theorem wellDriven_of_inputs_eq_drop {s t : State} {k : Nat} (hs : s.WellDriven) (h : t.inputs = s.inputs.drop k) :
    t.WellDriven := fun v hv => hs v (List.mem_of_mem_drop (h ▸ hv))

/-- Progress: a well-driven state has a next state. -/
theorem exists_step_of_wellDriven {s : State} (hs : s.WellDriven) : ∃ t, step s = .next t := by
  cases hin : s.inputs with
  | nil => exact ⟨s, step_of_nil hin⟩
  | cons v rest =>
    obtain ⟨i, hi⟩ := exists_decode_of_length (hs v (hin ▸ List.mem_cons_self))
    rw [step_of_decode hin hi]
    exact exec_eq_next_of_wellFormed ((decode_eq_ok v i).mp hi).2 _

theorem run_succ_of_step {s t : core.State} (hstep : core.step s = .next t) (k : Nat) :
    core.run (k + 1) s = core.run k t := by
  rw [Host.Core.run, hstep]

/-- Settles O3: by induction on the number of steps, from progress and the two invariants of one step. -/
theorem wellDrivenRunsNeverStop : Obligations.WellDrivenRunsNeverStop := by
  intro s hdriven hports k
  induction k generalizing s with
  | zero => exact ⟨s, rfl, hports, hdriven, rfl⟩
  | succ k ih =>
    obtain ⟨s₁, hstep⟩ := exists_step_of_wellDriven hdriven
    have hinputs := step_inputs hstep
    obtain ⟨t, hrun, hports', hdriven', hdrop⟩ := ih s₁ (wellDriven_of_inputs_eq_drop hdriven hinputs)
      (everyStepKeepsOutputsEqualToTheBlockFunctions s s₁ hports hstep)
    refine ⟨t, (run_succ_of_step hstep k).trans hrun, hports', hdriven', ?_⟩
    rw [hdrop, hinputs, List.drop_drop, Nat.add_comm]

end Sys2Proof.Machine
end

section
/-! Proofs of the encoding's statements about table words and sequences (20_memory.md R25, R26; 30_encoding.md R37, R38,
R48). -/

namespace Sys2Proof.Machine

/-! The two rows. -/

/-- The table words that are instructions: a row is picked by the width, and its operand is the word's bits. -/
theorem decodeTableWord_eq_some_iff (nbits w : Nat) (i : Instr) :
    decodeTableWord nbits w = some i ↔
      w < 2 ^ nbits ∧
        (nbits = 64 ∧ i = .encode (bitsOfNat nbits w) ∨ nbits = 72 ∧ i = .decode (bitsOfNat nbits w)) := by
  rw [decodeTableWord_eq_some]
  refine and_congr_right fun _ => ?_
  cases i with
  | encode d =>
    rw [encode_encode, tableDrive, Drive.mk.injEq, Instr.wellFormed_encode]
    constructor
    · rintro ⟨⟨-, rfl⟩, hlen⟩
      exact .inl ⟨(bitsOfNat_length nbits w).symm.trans hlen, rfl⟩
    · rintro (⟨rfl, h⟩ | ⟨-, h⟩)
      · exact ⟨⟨rfl, Instr.encode.inj h⟩, (congrArg (·.operand.length) h).trans (bitsOfNat_length 64 w)⟩
      · cases h
  | decode c =>
    rw [encode_decode, tableDrive, Drive.mk.injEq, Instr.wellFormed_decode]
    constructor
    · rintro ⟨⟨-, rfl⟩, hlen⟩
      exact .inr ⟨(bitsOfNat_length nbits w).symm.trans hlen, rfl⟩
    · rintro (⟨-, h⟩ | ⟨rfl, h⟩)
      · cases h
      · exact ⟨⟨rfl, Instr.decode.inj h⟩, (congrArg (·.operand.length) h).trans (bitsOfNat_length 72 w)⟩

/-- Settles O10: the operand's length picks its row, and the bits of its number are the operand again. -/
theorem tableWordOfAnInstructionDecodesToIt : Obligations.TableWordOfAnInstructionDecodesToIt := by
  intro i hi
  refine (decodeTableWord_eq_some_iff _ _ _).mpr ⟨natOfBits_lt _, ?_⟩
  cases i with
  | encode d =>
    have hback : bitsOfNat d.length (natOfBits d) = d := bitsOfNat_natOfBits d
    exact .inl ⟨(Instr.wellFormed_encode d).mp hi, congrArg Instr.encode hback.symm⟩
  | decode c =>
    have hback : bitsOfNat c.length (natOfBits c) = c := bitsOfNat_natOfBits c
    exact .inr ⟨(Instr.wellFormed_decode c).mp hi, congrArg Instr.decode hback.symm⟩

/-- Settles O11: both parts read off the rows; the number of the word's bits is the word, which fits. -/
theorem tableWordsAreTheTwoRows : Obligations.TableWordsAreTheTwoRows := by
  intro nbits w
  simp only [decodeTableWord_eq_some_iff]
  refine ⟨⟨?widths, ?decodes⟩, ?row⟩
  case widths =>
    rintro ⟨i, hw, ⟨hn, -⟩ | ⟨hn, -⟩⟩
    · exact ⟨.inl hn, hw⟩
    · exact ⟨.inr hn, hw⟩
  case decodes =>
    rintro ⟨hn | hn, hw⟩
    · exact ⟨_, hw, .inl ⟨hn, rfl⟩⟩
    · exact ⟨_, hw, .inr ⟨hn, rfl⟩⟩
  case row =>
    rintro i ⟨hw, ⟨rfl, rfl⟩ | ⟨rfl, rfl⟩⟩
    · simp [encodeTableWord, natOfBits_bitsOfNat 64 w hw]
    · simp [encodeTableWord, natOfBits_bitsOfNat 72 w hw]

theorem decodeTableWord_of_other_width {nbits : Nat} (h64 : nbits ≠ 64) (h72 : nbits ≠ 72) (w : Nat) :
    decodeTableWord nbits w = none := by
  refine Option.eq_none_iff_forall_ne_some.mpr fun i hi => ?_
  obtain ⟨-, ⟨hn, -⟩ | ⟨hn, -⟩⟩ := (decodeTableWord_eq_some_iff nbits w i).mp hi
  · exact h64 hn
  · exact h72 hn

/-- Settles O12: each word's bits, against the sequence written out; no other width has a row. -/
theorem wordsWrittenOutFromTheLayoutDecode : Obligations.WordsWrittenOutFromTheLayoutDecode := by
  refine ⟨?bit0, ?bit63, ?position42, ?position72, ?width63, ?width65, ?width71, ?width73⟩
  case bit0 | bit63 | position42 | position72 =>
    rw [decodeTableWord_eq_some_iff]
    decide
  case width63 | width65 | width71 | width73 =>
    exact decodeTableWord_of_other_width (by decide) (by decide) 0

/-! Sequences on the buses. -/

/-- The number of a sequence, as a sum over its elements. -/
theorem natOfBits_eq_sum (l : List Bool) :
    natOfBits l = ((List.range l.length).map fun k => (l.getD k false).toNat * 2 ^ k).sum := by
  induction l with
  | nil => rfl
  | cons b bs ih =>
    have hshift : ((List.range bs.length).map fun k => (bs.getD k false).toNat * 2 ^ (k + 1)) =
        ((List.range bs.length).map fun k => 2 * ((bs.getD k false).toNat * 2 ^ k)) :=
      List.map_congr_left fun k _ => by ring
    rw [natOfBits, ih, List.length_cons, List.range_succ_eq_map, List.map_cons, List.sum_cons, List.map_map,
      ← List.sum_map_mul_left, ← hshift]
    simp [Function.comp_def]

theorem toNat_payloadOfSeq {l : List Bool} (hl : l.length = 64) : (payloadOfSeq l).toNat = natOfBits l := by
  rw [payloadOfSeq, BitVec.toNat_ofNat, Nat.mod_eq_of_lt (hl ▸ natOfBits_lt l)]

/-- Settles O13: the bits of the number of a sequence are its elements. -/
theorem sequenceElementsAreBusBits : Obligations.SequenceElementsAreBusBits := by
  refine ⟨fun l hl => ⟨fun k hk => getLsbD_payloadOfSeq l hk, ?sum⟩, fun l _ p hp => bitAt_codewordOfSeq l hp⟩
  rw [toNat_payloadOfSeq hl, natOfBits_eq_sum, hl]

end Sys2Proof.Machine
end

section
/-! Proofs of the statements about positions and the harness branch (00_scope.md R10; 20_memory.md R28;
70_reset_and_hazards.md R90, R91). -/

namespace Sys2Proof.Machine

/-- What `setPos` has done when it answers a word. -/
theorem setPos_eq_ok {c c' : Codeword} {p : Nat} {b : Bool} (h : setPos c p b = .ok c') :
    IsPosition p ∧ c' = setAt c p b := by
  rw [setPos_spec] at h
  split at h
  · exact ⟨‹_›, (Except.ok.inj h).symm⟩
  · cases h

/-- Words that agree at a position, if it exists, read the same there. -/
theorem getPos_congr {c c' : Codeword} {q : Nat} (h : IsPosition q → bitAt c' q = bitAt c q) :
    getPos c' q = getPos c q := by
  rw [getPos_spec, getPos_spec]
  split
  · rw [h ‹_›]
  · rfl

theorem errorAt_xor_self (c : Codeword) (p : Nat) : c ^^^ errorAt p ^^^ errorAt p = c := by
  rw [BitVec.xor_assoc, BitVec.xor_self, BitVec.xor_zero]

/-- Settles O15: the bit written, or inverted, is the only one that differs. -/
theorem setAndFlipChangeOnePosition : Obligations.SetAndFlipChangeOnePosition := by
  intro c c' p q b hne
  refine ⟨fun h => ?set, fun h => ?flip⟩
  case set =>
    obtain ⟨hp, rfl⟩ := setPos_eq_ok h
    refine ⟨getPos_congr fun hq => by rw [bitAt_setAt c p q b hp hq, if_neg hne], ?_⟩
    rw [getPos_spec, if_pos hp, bitAt_setAt c p p b hp hp, if_pos rfl]
  case flip =>
    obtain ⟨hp, rfl⟩ := flip_eq_ok h
    refine ⟨getPos_congr fun hq => ?_, ?_⟩
    · rw [bitAt_xor, bitAt_twoPow p q hp hq, decide_eq_false hne, Bool.xor_false]
    · rw [flip_of_isPosition _ hp, errorAt_xor_self]

/-- Settles O16: the eight numbers of the definition, and the others of 1..72, which `pos` counts. -/
theorem payloadPositionsAreThe64Others : Obligations.PayloadPositionsAreThe64Others := by
  refine ⟨fun p => ?parity, by decide, ?count⟩
  case parity => simp [isParityPos_iff, or_assoc]
  case count => rw [filter_payload_positions, List.length_map, List.length_range]

/-- Settles O42: the branch is `flip` at the reported position, which refuses what is not in 1..72. -/
theorem callerFlipsOnlyAReportedPosition : Obligations.CallerFlipsOnlyAReportedPosition := by
  refine ⟨fun c p hp => ?flips, fun c p hp => ?stops, fun c => rfl⟩
  case flips => exact ⟨_, flip_of_isPosition c hp, (correctIfSingle_single p c).trans (if_pos hp)⟩
  case stops => exact (correctIfSingle_single p c).trans (if_neg hp)

end Sys2Proof.Machine
end

section
/-! Proofs of the statements about the output bus (30_encoding.md R42 to R46). -/

namespace Sys2Proof.Machine

/-- What DECODE has done when it answers a next state. -/
theorem exec_decode_eq_next {bits : List Bool} {s t : State} (h : exec (.decode bits) s = .next t) :
    t = s.writeDecoder (codewordOfSeq bits) (bus (decodeWord (codewordOfSeq bits))) := by
  rw [exec_decode] at h
  split at h
  · exact (Host.Outcome.next.inj h).symm
  · cases h

/-- The three items of R44, for every outcome but a single error at the position 0, which does not exist. -/
theorem bus_not_reserved {o : DecodeOutcome} (ho : o ≠ .singleCorrectableError 0#7) :
    (bus o).1 ≠ 0b11#2 ∧ ((bus o).1 = 0b01#2 → (bus o).2 ≠ 0) ∧
    ((bus o).1 = 0b00#2 ∨ (bus o).1 = 0b10#2 → (bus o).2 = 0) := by
  cases o with
  | noError => decide
  | doubleErrorDetected => decide
  | singleCorrectableError q =>
    have hq : q ≠ 0#7 := fun h => ho (h ▸ rfl)
    simp [bus, hq]

/-- Settles O32: the classifier never reports a single error at the position 0. -/
theorem reservedOutputsAreNeverDriven : Obligations.ReservedOutputsAreNeverDriven := by
  refine ⟨fun bits s t h => ?driven, fun q => rfl⟩
  have hread := readOutcome_of_exec_decode h
  obtain rfl := exec_decode_eq_next h
  obtain ⟨h11, h01, h0⟩ := bus_not_reserved (o := decodeWord (codewordOfSeq bits))
    (classify_ne_singleCorrectableError_zero _ _)
  exact ⟨h11, h01, h0, hread⟩

/-- Everything `unbus` can do: read the outcome of a pair that `bus` gives, or fault with the pair. -/
theorem unbus_cases (x : BitVec 2) (y : BitVec 7) :
    (∃ o, unbus x y = .ok o ∧ bus o = (x, y) ∧ o ≠ .singleCorrectableError 0) ∨
    unbus x y = .error (.neverDriven x y) := by
  unfold unbus
  split_ifs with h00 h01 h10
  · obtain ⟨rfl, rfl⟩ := h00
    exact .inl ⟨_, rfl, rfl, by decide⟩
  · obtain ⟨rfl, hy⟩ := h01
    exact .inl ⟨_, rfl, rfl, fun h => hy (DecodeOutcome.singleCorrectableError.inj h)⟩
  · obtain ⟨rfl, rfl⟩ := h10
    exact .inl ⟨_, rfl, rfl, by decide⟩
  · exact .inr rfl

/-- Settles O33: `unbus_bus` one way and `unbus_cases` the other. -/
theorem unbusIsTheInverseOfBus : Obligations.UnbusIsTheInverseOfBus := by
  refine ⟨rfl, fun q => rfl, rfl, fun o ho => unbus_bus ho, fun x y o h => ?reads, fun x y hnone => ?faults⟩
  case reads =>
    obtain ⟨o', hok, hbus⟩ | herror := unbus_cases x y
    · obtain rfl := Except.ok.inj (h.symm.trans hok)
      exact hbus
    · cases h.symm.trans herror
  case faults =>
    obtain ⟨o, -, hbus, ho⟩ | herror := unbus_cases x y
    · exact absurd hbus (hnone o ho)
    · exact herror

end Sys2Proof.Machine
end

section
/-! Proofs of the statements about calls and their frames (20_memory.md R29 to R32; 42_decoder.md R61): a completed call
is one write to its own block's ports. -/

namespace Sys2Proof.Machine

theorem exists_exec_eq_next_iff (i : Instr) (s : State) : (∃ t, exec i s = .next t) ↔ i.WellFormed := by
  constructor
  · rintro ⟨t, ht⟩
    by_contra hi
    exact exec_ne_next_of_not_wellFormed hi s t ht
  · exact fun hi => exec_eq_next_of_wellFormed hi s

theorem wellFormed_of_exec_eq_next {i : Instr} {s t : State} (h : exec i s = .next t) : i.WellFormed :=
  (exists_exec_eq_next_iff i s).mp ⟨t, h⟩

/-- Settles O43: the fields of the one write. -/
theorem onlyTheDrivenBlockChanges : Obligations.OnlyTheDrivenBlockChanges := by
  refine fun bits s t => ⟨fun h => ?encode, fun h => ?decode⟩
  case encode =>
    obtain rfl := exec_encode_eq_next h
    exact ⟨State.writeEncoder_data .., State.writeEncoder_decoder .., State.writeEncoder_inputs ..⟩
  case decode =>
    obtain rfl := exec_decode_eq_next h
    exact ⟨State.writeDecoder_cw .., State.writeDecoder_encoder .., State.writeDecoder_inputs ..⟩

/-- Writes to the two blocks commute. -/
theorem writeDecoder_writeEncoder (s : State) (d : Payload) (x c : Codeword) (b : BitVec 2 × BitVec 7) :
    (s.writeEncoder d x).writeDecoder c b = (s.writeDecoder c b).writeEncoder d x := rfl

/-- Settles O44: the two calls write different blocks, and what they write depends on the operand alone. -/
theorem callsDoNotAffectEachOther : Obligations.CallsDoNotAffectEachOther := by
  refine ⟨fun d c s hd hc => ?commute, fun bits s s' t t' => ⟨fun h h' => ?encode, fun h h' => ?decode⟩⟩
  case commute =>
    have hencode (s : State) := (exec_encode d s).trans (if_pos hd)
    have hdecode (s : State) := (exec_decode c s).trans (if_pos hc)
    refine ⟨_, _, _, hencode s, hdecode _, hdecode s, ?_⟩
    rw [hencode, writeDecoder_writeEncoder]
  case encode => rw [exec_encode_eq_next h, exec_encode_eq_next h']; rfl
  case decode => rw [exec_decode_eq_next h, exec_decode_eq_next h']; rfl

/-- Settles O45: the second call writes the same values to the same ports. -/
theorem theSameCallAgainChangesNothing : Obligations.TheSameCallAgainChangesNothing := by
  intro i s t h
  have hwf := wellFormed_of_exec_eq_next h
  cases i with
  | encode d =>
    obtain rfl := exec_encode_eq_next h
    exact (exec_encode d _).trans (if_pos ((Instr.wellFormed_encode d).mp hwf))
  | decode c =>
    obtain rfl := exec_decode_eq_next h
    exact (exec_decode c _).trans (if_pos ((Instr.wellFormed_decode c).mp hwf))

/-- Settles O46: well-formedness is the port's width, and a word of that width gives its sequence back. -/
theorem everyAccessIsAWholeWord : Obligations.EveryAccessIsAWholeWord := by
  refine fun bits s => ⟨?encodes, ?decodes, fun t h => ?payload, fun t h => ?codeword⟩
  case encodes => exact (exists_exec_eq_next_iff (.encode bits) s).trans (Instr.wellFormed_encode bits)
  case decodes => exact (exists_exec_eq_next_iff (.decode bits) s).trans (Instr.wellFormed_decode bits)
  case payload =>
    rw [exec_encode_eq_next h, State.writeEncoder_data]
    exact seqOfWord_payloadOfSeq bits ((Instr.wellFormed_encode bits).mp (wellFormed_of_exec_eq_next h))
  case codeword =>
    rw [exec_decode_eq_next h, State.writeDecoder_cw]
    exact seqOfWord_codewordOfSeq bits ((Instr.wellFormed_decode bits).mp (wellFormed_of_exec_eq_next h))

end Sys2Proof.Machine
end

section
/-! Proofs of the statements about many flips and the distance between codewords (42_decoder.md R71;
70_reset_and_hazards.md R92; 41_encoder.md R58). -/

namespace Sys2Proof.Machine

/-! Flips of any positions, as DECODE sees them. -/

theorem flipAll_of_isPosition {ps : List Nat} (hps : ∀ p ∈ ps, IsPosition p) (c : Codeword) :
    flipAll ps c = .ok (c ^^^ errorPattern ps) := by
  induction ps generalizing c with
  | nil => exact congrArg Except.ok BitVec.xor_zero.symm
  | cons p ps ih =>
    obtain ⟨hp, hps'⟩ := List.forall_mem_cons.mp hps
    rw [flipAll, flip_of_isPosition c hp]
    exact (ih hps' _).trans (congrArg Except.ok (BitVec.xor_assoc ..))

theorem syndrome_zero : syndrome 0#72 = 0#7 :=
  (congrArg syndrome encodeWord_zero).symm.trans (syndrome_encodeWord 0)

theorem syndrome_errorPattern {ps : List Nat} (hps : ∀ p ∈ ps, IsPosition p) :
    syndrome (errorPattern ps) = xorOfPositions ps := by
  induction ps with
  | nil => exact syndrome_zero
  | cons p ps ih =>
    obtain ⟨hp, hps'⟩ := List.forall_mem_cons.mp hps
    rw [errorPattern_cons, syndrome_xor, syndrome_errorAt hp, ih hps']
    rfl

theorem classify_true (S : Syndrome) : classify S true = .singleCorrectableError (if S = 0 then 72 else S) := by
  by_cases hS : S = 0
  · rw [if_pos hS, hS]; rfl
  · rw [if_neg hS, classify_true_of_ne hS]

theorem classify_false (S : Syndrome) :
    classify S false = if S = 0 then .noError else .doubleErrorDetected := by
  by_cases hS : S = 0
  · rw [if_pos hS, hS]; rfl
  · rw [if_neg hS, classify_false_of_ne hS]

/-- Settles O37: the parity of the number of flips is P and the XOR of their positions is S. -/
theorem anyFlipsAreClassifiedByTheXorOfTheirPositions :
    Obligations.AnyFlipsAreClassifiedByTheXorOfTheirPositions := by
  intro d ps _ hps
  have hdecode : decodeWord (errorPattern ps) = classify (xorOfPositions ps) (decide (ps.length % 2 = 1)) := by
    rw [decodeWord, syndrome_errorPattern hps, overallParity_errorPattern hps]
  refine ⟨encodeWord d, _, encodesTo_encodeWord d, flipAll_of_isPosition hps _, fun hodd => ?odd, fun heven => ?even⟩
  case odd =>
    rw [← classify_true, ← decide_eq_true hodd, ← hdecode]
    exact decodesTo_encodeWord_xor d _
  case even =>
    have hnot : ¬ ps.length % 2 = 1 := by omega
    rw [← classify_false, ← decide_eq_false hnot, ← hdecode]
    exact decodesTo_encodeWord_xor d _

/-! An error pattern is the list of its positions. -/

/-- The positions of the 1 bits of a word, ascending. -/
def onePositions (e : Codeword) : List Nat := positions.filter (bitAt e)

theorem isPosition_of_mem_onePositions {e : Codeword} {p : Nat} (hp : p ∈ onePositions e) : IsPosition p :=
  (mem_positions p).mp (List.mem_of_mem_filter hp)

theorem nodup_onePositions (e : Codeword) : (onePositions e).Nodup := positions_nodup.filter _

theorem length_onePositions (e : Codeword) : (onePositions e).length = popcount e := by
  rw [onePositions, ← List.countP_eq_length_filter, positions_eq_map, List.countP_map, popcount]
  refine List.countP_congr fun k _ => ?_
  rw [Function.comp_apply, bitAt, posIndex, Nat.add_sub_cancel_left]

theorem bitAt_errorPattern {ps : List Nat} (hnd : ps.Nodup) (hps : ∀ p ∈ ps, IsPosition p) {q : Nat}
    (hq : IsPosition q) : bitAt (errorPattern ps) q = decide (q ∈ ps) := by
  induction ps with
  | nil => exact bitAt_zero q
  | cons p ps ih =>
    obtain ⟨hmem, hnd'⟩ := List.nodup_cons.mp hnd
    obtain ⟨hp, hps'⟩ := List.forall_mem_cons.mp hps
    rw [errorPattern_cons, bitAt_xor, bitAt_twoPow p q hp hq, ih hnd' hps']
    by_cases hqp : q = p
    · subst hqp; simp [hmem]
    · simp [hqp]

theorem errorPattern_onePositions (e : Codeword) : errorPattern (onePositions e) = e := by
  refine codeword_ext fun q hq => ?_
  rw [bitAt_errorPattern (nodup_onePositions e) (fun _ => isPosition_of_mem_onePositions) hq, onePositions]
  simp [hq]

/-! The distance between codewords (R71). -/

theorem encodeWord_injective : Function.Injective encodeWord := Function.LeftInverse.injective extract_encodeWord

/-- Flips that amount to the codeword of a nonzero payload are even in number, and neither none nor two: two would be a
double error. -/
theorem four_le_length_of_errorPattern_eq_encodeWord {d : Payload} (hd : d ≠ 0) {ps : List Nat} (hnd : ps.Nodup)
    (hps : ∀ p ∈ ps, IsPosition p) (h : errorPattern ps = encodeWord d) : 4 ≤ ps.length := by
  have heven := overallParity_errorPattern hps
  rw [h, overallParity_encodeWord, eq_comm, decide_eq_false_iff_not] at heven
  by_contra hlt
  obtain hlen | hlen : ps.length = 0 ∨ ps.length = 2 := by omega
  · obtain rfl := List.length_eq_zero_iff.mp hlen
    exact hd (encodeWord_injective (h.symm.trans encodeWord_zero.symm))
  · obtain ⟨p, q, rfl⟩ := List.length_eq_two.mp hlen
    have hne : p ≠ q := List.ne_of_not_mem_cons (List.nodup_cons.mp hnd).1
    have hdouble := decodeWord_errorAt_xor_errorAt (hps p (by simp)) (hps q (by simp)) hne
    rw [errorPattern_cons, errorPattern_cons, errorPattern_nil, BitVec.xor_zero] at h
    rw [h, decodeWord_encodeWord] at hdouble
    cases hdouble

theorem four_le_popcount_encodeWord {d : Payload} (hd : d ≠ 0) : 4 ≤ popcount (encodeWord d) :=
  length_onePositions (encodeWord d) ▸ four_le_length_of_errorPattern_eq_encodeWord hd (nodup_onePositions _)
    (fun _ => isPosition_of_mem_onePositions) (errorPattern_onePositions _)

theorem distance_encodeWord (a b : Payload) :
    distance (encodeWord a) (encodeWord b) = popcount (encodeWord (a ^^^ b)) := by
  rw [distance, encodeWord_xor]

/-! Codewords written out (R58), through the equations of R57. -/

theorem encodeWord_allOnes : encodeWord 0xffffffffffffffff = 0xffffffffffffffffff := by
  rw [encodeWord_eq_encodeTrees]; decide +kernel

theorem encodeWord_lowestBit : encodeWord 0x0000000000000001 = 0x800000000000000007 := by
  rw [encodeWord_eq_encodeTrees]; decide +kernel

theorem encodeWord_highestBit : encodeWord 0x8000000000000000 = 0xc0800000000000000b := by
  rw [encodeWord_eq_encodeTrees]; decide +kernel

/-- Settles O25: ENCODE of a payload word ends in its codeword in every state, and these are the four codewords. -/
theorem encodeCornerValues : Obligations.EncodeCornerValues := by
  refine ⟨?zero, ?ones, ?lowest, ?highest⟩
  case zero => exact encodeWord_zero ▸ encodesTo_encodeWord 0
  case ones => exact encodeWord_allOnes ▸ encodesTo_encodeWord _
  case lowest => exact encodeWord_lowestBit ▸ encodesTo_encodeWord _
  case highest => exact encodeWord_highestBit ▸ encodesTo_encodeWord _

/-- Settles O26: the difference of two codewords is the codeword of a nonzero payload; payload bit 0 alone sets the
positions 1, 2, 3 and 72. -/
theorem codewordsOfDistinctPayloadsDifferInFourPositions :
    Obligations.CodewordsOfDistinctPayloadsDifferInFourPositions := by
  constructor
  · intro a b hne
    refine ⟨encodeWord a, encodeWord b, encodesTo_encodeWord a, encodesTo_encodeWord b, ?_⟩
    rw [distance_encodeWord]
    exact four_le_popcount_encodeWord (mt BitVec.xor_eq_zero_iff.mp hne)
  · refine ⟨0, 1, encodeWord 0, encodeWord 1, by decide, encodesTo_encodeWord 0, encodesTo_encodeWord 1, ?_⟩
    have hdiff : (0 : Payload) ^^^ 1 = 1 := by decide
    rw [distance_encodeWord, hdiff, encodeWord_lowestBit]
    decide

/-! Miscorrection (R92). -/

theorem countP_le_countP_add_countP {α : Type} {f g h : α → Bool}
    (hor : ∀ x, f x = true → g x = true ∨ h x = true) (l : List α) : l.countP f ≤ l.countP g + l.countP h := by
  induction l with
  | nil => simp
  | cons x l ih =>
    by_cases hf : f x = true
    · obtain hg | hh := hor x hf
      · simp only [List.countP_cons, hf, hg, if_true]; omega
      · simp only [List.countP_cons, hf, hh, if_true]; omega
    · simp only [List.countP_cons, if_neg hf]; omega

/-- A 1 bit of `a` is a 1 bit of the difference with `b`, or of `b`. -/
theorem popcount_le_popcount_xor_add {n : Nat} (a b : BitVec n) : popcount a ≤ popcount (a ^^^ b) + popcount b := by
  refine countP_le_countP_add_countP (fun k hk => ?_) _
  rw [BitVec.getLsbD_xor, hk]
  cases b.getLsbD k <;> simp

theorem popcount_errorAt {p : Nat} (hp : IsPosition p) : popcount (errorAt p) = 1 := by
  have hmem : p ∈ positions := (mem_positions p).mpr hp
  rw [← length_onePositions, onePositions, ← List.countP_eq_length_filter,
    ← List.count_eq_one_of_mem positions_nodup hmem, List.count]
  refine List.countP_congr fun q hq => ?_
  rw [bitAt_twoPow p q hp ((mem_positions q).mp hq), decide_eq_true_eq, beq_iff_eq]

/-- What the harness branch has done when it corrects. -/
theorem correctIfSingle_eq_corrected {o : DecodeOutcome} {c c' : Codeword} (h : correctIfSingle o c = .corrected c') :
    ∃ p, IsPosition p ∧ c' = c ^^^ errorAt p := by
  cases o with
  | noError => cases h
  | doubleErrorDetected => cases h
  | singleCorrectableError q =>
    rw [correctIfSingle_single] at h
    split at h
    · exact ⟨q.toNat, ‹_›, (CallerResult.corrected.inj h).symm⟩
    · cases h

/-- Settles O41: the correction flips one position, whichever DECODE names, so it mends at most one of the flips. -/
theorem miscorrectionLeavesTheOtherFlips : Obligations.MiscorrectionLeavesTheOtherFlips := by
  intro d c e c' _ _ _ h
  obtain ⟨p, hp, rfl⟩ := correctIfSingle_eq_corrected h
  have hdiff : c ^^^ e ^^^ errorAt p ^^^ c = e ^^^ errorAt p := by
    rw [BitVec.xor_comm _ c, BitVec.xor_assoc, ← BitVec.xor_assoc c, BitVec.xor_self, BitVec.zero_xor]
  have hle := popcount_le_popcount_xor_add e (errorAt p)
  rw [popcount_errorAt hp] at hle
  rw [distance, hdiff]
  omega

end Sys2Proof.Machine
end
